-- ==== Sys2Proof/Word.lean ====
section
/-! DEFINITION. The widths of the Line-code encoder: 00_scope.md R7, R8; 30_encoding.md R51, R52. -/

namespace Sys2Proof

/-- A command word of the format CMD10: 10 bits, bit 0 the least significant (30_encoding.md R51). -/
abbrev CmdWord := BitVec 10

/-- A character code, `CW` = 8 bits (00_scope.md R7, 30_encoding.md R52). -/
abbrev CharCode := BitVec 8

/-- One cell of the output buffer (10_state.md R16). -/
abbrev Byte := BitVec 8

/-- One unit of the line code, one binary digit (00_scope.md R8): `false` is 0, `true` is 1. -/
abbrev LineUnit := Bool

/-- One logical bit, a valid character of the LogicalBitString (00_scope.md R9): `false` is 0, `true` is 1. -/
abbrev LogicalBit := Bool

end Sys2Proof
end

