-- ==== Sys2Proof/Config.lean ====
section
/-! DEFINITION. What an implementation fixes (00_scope.md R7), the reference values of the reference arithmetic, and the
free values of the surrounding software (44_surrounding_system.md R121, R135). -/

namespace Sys2Proof

/-- The open parameter of the encoder (00_scope.md R7). -/
structure Config where
  /-- `LMAX`, the largest number of logical bits in one frame; none when unbounded. -/
  lmax : Option Nat
  deriving DecidableEq, Repr

/-- The default: `LMAX` unbounded (R7, D13). -/
def Config.unbounded : Config := ⟨none⟩

/-- The least `k` with `n ≤ 2 ^ k`, that is `ceil(log2 n)` for `n ≥ 1`, searched from `k` up with `fuel` tries. -/
def Config.ceilLog2From (n : Nat) : Nat → Nat → Nat
  | 0, k => k
  | fuel + 1, k => if n ≤ 2 ^ k then k else ceilLog2From n fuel (k + 1)

/-- `ceil(log2 n)`; `n` tries are enough because `n ≤ 2 ^ n`. -/
def Config.ceilLog2 (n : Nat) : Nat := Config.ceilLog2From n n 0

/-- `PW`, the width of POS, LEN and ERRPOS: none when unbounded, else `ceil(log2(LMAX+1))` (R7). -/
def Config.pw (c : Config) : Option Nat := c.lmax.map (fun l => Config.ceilLog2 (l + 1))

/-- The largest number of bytes of a frame: `ceil(3*LMAX/8)` (20_memory.md R40). -/
def Config.outCapacity (c : Config) : Option Nat := c.lmax.map (fun l => (3 * l + 7) / 8)

/-- `max_chunk_size` of the reference hardware, bytes (R7, 44_surrounding_system.md R126). -/
def Config.referenceChunkSize : Nat := 32

/-- A configuration request: "a 16-bit mode value and a 16-bit index value, no payload" (R121), with its request code,
whose width the source does not give (log entry 15). -/
structure ConfigRequest where
  code : Nat
  mode : BitVec 16
  index : BitVec 16
  deriving DecidableEq, Repr, Inhabited

/-- The request that enables the output mode. Its code, mode and index are not in the source (R121, N16): a free value,
log entry 15. -/
opaque Config.modeEnableRequest : ConfigRequest

/-- The request that sets the divisor component N, a free value for every N (R121, N16), log entry 15. -/
opaque Config.setNRequest : Int → ConfigRequest

/-- The request that sets the divisor component M, a free value for every M (R121, N16), log entry 15. -/
opaque Config.setMRequest : Int → ConfigRequest

/-- The request code of the data requests; not in the source (R121, N16): a free value, log entry 15. -/
opaque Config.dataRequestCode : Nat

/-- The vendor/product identifier pair by which the adapter is located (44_surrounding_system.md R134). Its value is a
parameter (93_implementation_defined.md U9); the width of the two is not given (log entry 30). -/
structure DeviceId where
  vendor : Nat
  product : Nat
  deriving DecidableEq, Repr

/-- The context an error is surfaced with: "offending input, failing offset, or missing device" (R137; 60_exceptions.md
R150, "what it records"). -/
inductive ErrorContext where
  /-- The offending character and its index. -/
  | character (code : CharCode) (index : Nat)
  /-- The device that was looked for. -/
  | missingDevice (device : DeviceId)
  /-- The byte offset of the chunk that failed. -/
  | byteOffset (offset : Nat)
  /-- R150 records nothing for the kind. -/
  | nothing
  deriving DecidableEq, Repr

/-- The printed hex representation of a buffer; its format is not given (R135, N20): a free value, log entry 21. -/
opaque Config.hexText : List Byte → List Char

/-- The printed success indicator; its wording is not given (R135, N20): a free value, log entry 21. -/
opaque Config.successText : List Char

/-- The printed diagnostic of the error with the given cause code (R151) and context (R137); its wording is not given
(R135, N20): a free value, log entry 21. -/
opaque Config.diagnosticText : Nat → ErrorContext → List Char

/-- One less than the exit status after a failure. The status is only said to be non-zero (R135, N23): a free value,
log entry 21. -/
opaque Config.failureStatusPred : Nat → Nat

end Sys2Proof
end

