-- ==== Sys2Proof/Syntax.lean ====
section
/-! DEFINITION. The instructions of the LCE (30_encoding.md R50, R56), the producer's three commands, and the assembly
lines of 30_encoding.md R62. -/

namespace Sys2Proof

/-- One constructor per row of spec/opcode_table.json. `reserved` is the refused quarter of the word space
(30_encoding.md R58): a row of the table, not an instruction of the machine (log entry 6). -/
inductive Instr where
  /-- 40_symbol_map.md R70: accept logical bit 0. -/
  | bit0
  /-- 40_symbol_map.md R71: accept logical bit 1. -/
  | bit1
  /-- 40_symbol_map.md R72: an invalid character `c`. -/
  | badChar (c : CharCode)
  /-- 41_byte_packer.md R84: pad, pack and produce the buffer. -/
  | endFrame
  /-- 42_frame_control.md R90: begin a new frame. -/
  | start
  /-- 30_encoding.md R58: a word with `kind = 0b11`. -/
  | reserved (ch : BitVec 8)
  deriving DecidableEq, Repr

/-- The three commands a producer sends (30_encoding.md R50). -/
inductive Command where
  | start
  | char (c : CharCode)
  | endFrame
  deriving DecidableEq, Repr

/-- One line of the assembly syntax of 30_encoding.md R62. -/
inductive AsmLine where
  | start
  | char (c : CharCode)
  | endFrame
  | bit0
  | bit1
  /-- The pseudo-instruction `ENCODE "s"`. -/
  | encode (s : List CharCode)
  deriving DecidableEq, Repr

end Sys2Proof
end

