-- ==== Sys2Proof/Machine/State.lean ====
section
/-! DEFINITION. The state of the LCE: the nine items of 10_state.md R10, the model's two fields that carry what is outside
the block (log entries 1 and 3), the reasons a step or a call can stop, and the state after reset (R23, R170). -/

namespace Sys2Proof.Machine

/-- The three values of `ST` (10_state.md R11). -/
inductive FrameState where
  /-- A frame is open. -/
  | OPEN
  /-- The buffer is produced. -/
  | DONE
  /-- An invalid character was met. -/
  | FAILED
  deriving DecidableEq, Repr

/-- The error kinds of 60_exceptions.md R150, in its order. -/
inductive ErrorKind where
  | invalidInput
  | deviceNotFound
  | deviceConfig
  | unrepresentableRate
  | transfer
  deriving DecidableEq, Repr

/-- What the outside sends the LCE between two steps (00_scope.md R6, 70_reset_and_hazards.md R170). -/
inductive Input where
  /-- The producer issues a command word (30_encoding.md R51). -/
  | command (w : CmdWord)
  /-- The platform asserts reset (70_reset_and_hazards.md R170). -/
  | reset
  deriving DecidableEq, Repr

/-- A byte memory: cells with strictly rising addresses; an unlisted address holds no value (10_state.md R16). -/
abbrev Memory := List Host.Cell

/-- The state. The first nine fields are all the state the LCE has (10_state.md R10). -/
structure State where
  /-- `ST` (R11). -/
  st : FrameState
  /-- `ACC` (R12). -/
  acc : BitVec 8
  /-- `CNT` (R13), 3 bits between steps. -/
  cnt : BitVec 3
  /-- `POS` (R14). -/
  pos : Nat
  /-- `LEN` (R15). -/
  len : Nat
  /-- `OUT` (R16). -/
  out : Memory
  /-- `ERRCODE` (R17). -/
  errCode : BitVec 3
  /-- `ERRCHAR` (R18). -/
  errChar : CharCode
  /-- `ERRPOS` (R19). -/
  errPos : Nat
  /-- MODEL's field: the implementation parameters (00_scope.md R7; log entry 3). -/
  cfg : Config
  /-- MODEL's field: what will be sent to the LCE, next first (00_scope.md R6; log entry 1). -/
  inputs : List Input
  deriving DecidableEq, Repr

/-- The errors of the surrounding software (60_exceptions.md R150; 93_implementation_defined.md U1, U6). No step of the
LCE raises one (R151): its own error, InvalidInputError, is a next state (R155). -/
inductive Fault where
  /-- Raised by `invoke` when the adapter is absent (44_surrounding_system.md R134); it records the missing device (R150).
  Safe. -/
  | deviceNotFound (device : DeviceId)
  /-- Raised by `apply` when a configuration request fails (R123). Safe. -/
  | deviceConfig
  /-- Raised by `divisorsFor` when no pair fits (43_clock_divisor_reference.md R106, R108). Safe. -/
  | unrepresentableRate
  /-- Raised by `transmit` when the chunk at this byte offset fails (44_surrounding_system.md R128). Safe. -/
  | transfer (byteOffset : Nat)
  deriving DecidableEq, Repr

/-- What the model gives no meaning (00_scope.md R8, "Refuse"). -/
inductive Refusal where
  /-- Raised by `exec` for an instruction without a meaning; no arm raises it. Safe. -/
  | notModelled (mnemonic : String)
  /-- Raised by RESERVED (30_encoding.md R58). Safe. -/
  | reservedCommand (ch : BitVec 8)
  /-- Raised by BIT0 and BIT1 in OPEN at POS = LMAX (70_reset_and_hazards.md R178). Safe. -/
  | capacityExceeded
  /-- Raised by a read outside the conditions of 10_state.md R22, 20_memory.md R37. Safe. -/
  | readUnavailable
  /-- Raised by `divisorsFor` outside its domain (43_clock_divisor_reference.md R102). Safe. -/
  | divisorsOutsideDomain
  /-- Raised by `transmit` with `max_chunk_size` 0 (44_surrounding_system.md R125). Safe. -/
  | zeroChunkSize
  /-- Raised by `decodeBuffer` on bytes `encode` did not produce (41_byte_packer.md R87). Safe. -/
  | notAnEncodedBuffer
  deriving DecidableEq, Repr

/-- The state after reset (10_state.md R23, 70_reset_and_hazards.md R170), with `LMAX` at its default (00_scope.md R7)
and nothing sent yet (log entry 1). -/
def State.reset : State :=
  { st := .OPEN, acc := 0x00#8, cnt := 0#3, pos := 0, len := 0, out := [], errCode := 0#3, errChar := 0x00#8,
    errPos := 0, cfg := Config.unbounded, inputs := [] }

end Sys2Proof.Machine
end

