-- ==== Sys2Proof/Machine/Flags.lean ====
section
/-! DEFINITION. The flag-like state, `ST` and `ERRCODE` (10_state.md R11, R17, R24), its codes, and the capacity test. -/

namespace Sys2Proof.Machine

/-- The 2-bit code of `ST` (10_state.md R11); `0b11` is taken by no value. -/
def FrameState.code : FrameState → BitVec 2
  | .OPEN => 0b00#2
  | .DONE => 0b01#2
  | .FAILED => 0b10#2

/-- The `ST` a 2-bit code stands for, none for `0b11` (R11). -/
def FrameState.ofCode (c : BitVec 2) : Option FrameState :=
  if c = 0b00#2 then some .OPEN else if c = 0b01#2 then some .DONE else if c = 0b10#2 then some .FAILED else none

/-- The 3-bit cause code of an error kind (60_exceptions.md R151); 0 is no error, 6 and 7 are unused. -/
def ErrorKind.code : ErrorKind → BitVec 3
  | .invalidInput => 1#3
  | .deviceNotFound => 2#3
  | .deviceConfig => 3#3
  | .unrepresentableRate => 4#3
  | .transfer => 5#3

/-- `ERRCODE` when no error is recorded (R151). -/
def noError : BitVec 3 := 0#3

/-- The kind of a fault of the surrounding software. -/
def Fault.kind : Fault → ErrorKind
  | .deviceNotFound _ => .deviceNotFound
  | .deviceConfig => .deviceConfig
  | .unrepresentableRate => .unrepresentableRate
  | .transfer _ => .transfer

/-- `POS = LMAX`: no further valid character fits (70_reset_and_hazards.md R178); never with `LMAX` unbounded. -/
def atCapacity (s : State) : Bool := s.cfg.lmax == some s.pos

end Sys2Proof.Machine
end

