-- ==== Sys2Proof/WellFormed.lean ====
section
/-! DEFINITION. Which terms of `Instr` stand for words of the opcode table (30_encoding.md R56, R57). -/

namespace Sys2Proof

/-- The two valid character codes: '0' = 0x30 and '1' = 0x31 (30_encoding.md R52; log entry 29). -/
def validChar (c : CharCode) : Bool := c == 0x30#8 || c == 0x31#8

/-- BADCHAR carries any code but 0x30 and 0x31 (40_symbol_map.md R72, the `exclude` key of its row); every other
instruction has no operand to check. -/
def Instr.wellFormed : Instr → Bool
  | .bit0 => true
  | .bit1 => true
  | .badChar c => !validChar c
  | .endFrame => true
  | .start => true
  | .reserved _ => true

end Sys2Proof
end

