-- ==== Sys2Proof/Decode.lean ====
section
/-! DEFINITION. From words to instructions and back: 30_encoding.md R51, R53, R56 to R59. -/

namespace Sys2Proof

/-! ## Fields (R51) -/

/-- `cw[9:8]`. -/
def kindField (w : CmdWord) : BitVec 2 := w.extractLsb' 8 2

/-- `cw[7:0]`. -/
def chField (w : CmdWord) : BitVec 8 := w.extractLsb' 0 8

/-- The word with the given `kind` and `ch`. -/
def joinFields (kind : BitVec 2) (ch : BitVec 8) : CmdWord := kind ++ ch

/-! ## Operand (R53) -/

/-- The logical bit of a character code, none for an invalid character (R52, R53). -/
def logicalBit? (c : CharCode) : Option LogicalBit :=
  if c = 0x30#8 then some false else if c = 0x31#8 then some true else none

/-! ## Commands (R50) -/

/-- The instruction a command is, by the value of its character (R50). -/
def Command.toInstr : Command → Instr
  | .start => .start
  | .endFrame => .endFrame
  | .char c =>
    match logicalBit? c with
    | some false => .bit0
    | some true => .bit1
    | none => .badChar c

/-- The word a producer sends for a command (R51: `ch` of END and START is sent as 0x00). -/
def Command.toWord : Command → CmdWord
  | .char c => joinFields 0b00#2 c
  | .endFrame => joinFields 0b01#2 0x00#8
  | .start => joinFields 0b10#2 0x00#8

/-! ## The decoder (R56) -/

/-- The decoding of 30_encoding.md R56, in its order. Total: all 1024 words decode, the reserved quarter to its own
name (R58). `ch` of END and START takes no part (R59). -/
def decode (w : CmdWord) : Instr :=
  if w = 0x030#10 then .bit0
  else if w = 0x031#10 then .bit1
  else if kindField w = 0b00#2 then .badChar (chField w)
  else if kindField w = 0b01#2 then .endFrame
  else if kindField w = 0b10#2 then .start
  else .reserved (chField w)

/-- Why bits on the command channel are no command word. -/
inductive DecodeError where
  /-- A bit above bit 9 is set: a command word has 10 bits (R51, R60; log entry 5). Safe. -/
  | widerThanTenBits
  deriving DecidableEq, Repr

/-- The decoder on a number given as bits, rejecting by name what does not fit the format's 10 bits. -/
def decodeNumber (w : Nat) : Except DecodeError Instr :=
  if w < 1024 then .ok (decode (BitVec.ofNat 10 w)) else .error .widerThanTenBits

/-- What the decoder reads from an instruction of `nbits` bits numbered as spec/opcode_table.json numbers them. The
format has one word per command (R60), so no later word follows; bits at `nbits` and above are 0. -/
def decodeTableWord (nbits w : Nat) : Option Instr :=
  match decodeNumber (w % 2 ^ nbits) with
  | .ok i => some i
  | .error _ => none

/-! ## The encoder (R51, R56) -/

/-- The word of an instruction; an ignored `ch` is sent as 0x00 (R51). -/
def encode : Instr → CmdWord
  | .bit0 => joinFields 0b00#2 0x30#8
  | .bit1 => joinFields 0b00#2 0x31#8
  | .badChar c => joinFields 0b00#2 c
  | .endFrame => joinFields 0b01#2 0x00#8
  | .start => joinFields 0b10#2 0x00#8
  | .reserved ch => joinFields 0b11#2 ch

/-- The word that a producer sends in place of `w`: the ignored field of END and START set to 0x00 (R51, R59). -/
def canonicalWord (w : CmdWord) : CmdWord :=
  if kindField w = 0b01#2 ∨ kindField w = 0b10#2 then w &&& 0x300#10 else w

/-! ## The opcode table as data (R56; spec/opcode_table.json) -/

/-- A mnemonic of the opcode table. -/
inductive Mnemonic where
  | BIT0 | BIT1 | BADCHAR | END | START | RESERVED
  deriving DecidableEq, Repr

/-- A row of the opcode table. -/
structure OpcodeRow where
  mnemonic : Mnemonic
  matchBits : CmdWord
  mask : CmdWord
  exclude : List CmdWord
  deriving DecidableEq, Repr

/-- A row matches when `(cw & mask) = match` (R56). -/
def OpcodeRow.hits (r : OpcodeRow) (w : CmdWord) : Bool := (w &&& r.mask) == r.matchBits

/-- A row matches without regard to order when the word is none of its excluded words (R56, key `exclude`). -/
def OpcodeRow.hitsAlone (r : OpcodeRow) (w : CmdWord) : Bool := r.hits w && !r.exclude.contains w

/-- The six rows, in the order of their key `priority`. -/
def opcodeRows : List OpcodeRow :=
  [⟨.BIT0, 0x030#10, 0x3FF#10, []⟩,
   ⟨.BIT1, 0x031#10, 0x3FF#10, []⟩,
   ⟨.BADCHAR, 0x000#10, 0x300#10, [0x030#10, 0x031#10]⟩,
   ⟨.END, 0x100#10, 0x300#10, []⟩,
   ⟨.START, 0x200#10, 0x300#10, []⟩,
   ⟨.RESERVED, 0x300#10, 0x300#10, []⟩]

/-- The seven disjoint patterns (match, mask) that can stand for the BADCHAR row (R56). -/
def badCharPatterns : List (CmdWord × CmdWord) :=
  [(0x080#10, 0x380#10), (0x040#10, 0x3C0#10), (0x000#10, 0x3E0#10), (0x020#10, 0x3F0#10),
   (0x038#10, 0x3F8#10), (0x034#10, 0x3FC#10), (0x032#10, 0x3FE#10)]

/-- The mnemonic of the first row that matches (R56: "the first line that matches decides"). -/
def tableMnemonic (w : CmdWord) : Option Mnemonic :=
  (opcodeRows.find? (fun r => r.hits w)).map OpcodeRow.mnemonic

/-- The mnemonic an instruction has in the table. -/
def Instr.mnemonic : Instr → Mnemonic
  | .bit0 => .BIT0
  | .bit1 => .BIT1
  | .badChar _ => .BADCHAR
  | .endFrame => .END
  | .start => .START
  | .reserved _ => .RESERVED

end Sys2Proof
end

