-- ==== Sys2Proof/Machine/Operands.lean ====
section
/-! DEFINITION. The operand of BIT0 and BIT1 and the symbol it becomes: 30_encoding.md R53, R54. -/

namespace Sys2Proof.Machine

/-- The LineSymbol of a logical bit in stream order: `001` for 0, `110` for 1 (R54, 41_byte_packer.md R85). -/
def sym : LogicalBit → List LineUnit
  | false => [false, false, true]
  | true => [true, true, false]

/-- The LineSymbol as a 3-bit number, the first unit in bit 2 (R54). -/
def symNumber : LogicalBit → BitVec 3
  | false => 0b001#3
  | true => 0b110#3

/-- The value of a unit as the bit that enters `ACC` (41_byte_packer.md R80). -/
def unitBit (u : LineUnit) : BitVec 8 := if u then 1#8 else 0#8

end Sys2Proof.Machine
end

