-- ==== Sys2Proof/Machine/Ops.lean ====
section
/-! DEFINITION. The shared operations: the byte memory (20_memory.md R36), `push_unit` (41_byte_packer.md R80), the
failure entry (60_exceptions.md R155) and the fresh frame that is the way out of it (R156). -/

namespace Sys2Proof.Machine

/-! ## The byte memory -/

/-- The canonical form: strictly rising addresses. Every listed cell holds a value, an unlisted one holds none
(10_state.md R16), so no listed cell equals what an unlisted one reads as. -/
abbrev Memory.wf (m : Memory) : Prop := m.Pairwise (fun a b => a.1 < b.1)

/-- What a cell holds; an unlisted cell holds no value (10_state.md R16, log entry 8). -/
def Memory.read : Memory → Nat → Option Byte
  | [], _ => none
  | (k, v) :: rest, a => if k = a then some v else Memory.read rest a

/-- `MemWrite(addr, 1, v)` (00_scope.md R8, 20_memory.md R36). -/
def Memory.write : Memory → Nat → Byte → Memory
  | [], a, v => [(a, v)]
  | (k, w) :: rest, a, v =>
    if a < k then (a, v) :: (k, w) :: rest
    else if a = k then (a, v) :: rest
    else (k, w) :: Memory.write rest a v

/-! ## The byte packer -/

/-- `((ACC << 1) | u) & 0xFF`: the new unit enters at bit 0 (41_byte_packer.md R80). -/
def shiftIn (acc : BitVec 8) (u : LineUnit) : BitVec 8 := (acc <<< 1) ||| unitBit u

/-- `push_unit(u)` (41_byte_packer.md R80). `CNT` is counted as a natural number because it reaches 8 inside the
operation (10_state.md R13). -/
def pushUnit (u : LineUnit) (s : State) : State :=
  if s.cnt.toNat + 1 = 8 then
    { s with out := s.out.write s.len (shiftIn s.acc u), len := s.len + 1, acc := 0x00#8, cnt := 0#3 }
  else
    { s with acc := shiftIn s.acc u, cnt := BitVec.ofNat 3 (s.cnt.toNat + 1) }

/-- `push_unit` on each unit in stream order. -/
def pushUnits : List LineUnit → State → State
  | [], s => s
  | u :: us, s => pushUnits us (pushUnit u s)

/-- The number of filler units at END, from the machine state: `(8 - CNT) mod 8` (41_byte_packer.md R81, R84). -/
def fillerCount (s : State) : Nat := (8 - s.cnt.toNat) % 8

/-! ## A valid character -/

/-- The shared rule of BIT0 and BIT1 (40_symbol_map.md R70, R71; 42_frame_control.md R91, R92). -/
def acceptBit (b : LogicalBit) (s : State) : Host.Outcome State Fault Refusal :=
  match s.st with
  | .OPEN =>
    if atCapacity s then .refused .capacityExceeded
    else .next (let t := pushUnits (sym b) s; { t with pos := t.pos + 1 })
  | .DONE => .next s
  | .FAILED => .next s

/-! ## Failure entry and the way out -/

/-- `raise InvalidInputError(c, p)` (60_exceptions.md R155), one atomic update; `POS` is unchanged. -/
def raiseInvalidInput (c : CharCode) (p : Nat) (s : State) : State :=
  { s with
    errCode := ErrorKind.invalidInput.code, errChar := c, errPos := p,
    len := 0, acc := 0x00#8, cnt := 0#3, out := [], st := .FAILED }

/-- Every item at its reset value: the effect of START and of reset (42_frame_control.md R90, 10_state.md R23,
70_reset_and_hazards.md R170), and the only way out of FAILED (60_exceptions.md R156). -/
def freshFrame (s : State) : State :=
  { s with
    st := .OPEN, acc := 0x00#8, cnt := 0#3, pos := 0, len := 0, out := [], errCode := noError, errChar := 0x00#8,
    errPos := 0 }

end Sys2Proof.Machine
end

