-- ==== Sys2Proof/Machine/FrameControl.lean ====
section
/-! DEFINITION. Frame control: START (42_frame_control.md R90) and the refused words (30_encoding.md R58). -/

namespace Sys2Proof.Machine

/-- START (R90): in every state, a fresh frame. -/
def execStart (s : State) : Host.Outcome State Fault Refusal := .next (freshFrame s)

/-- RESERVED (30_encoding.md R58): "The model refuses them: a run that issues one has no meaning". -/
def execReserved (ch : BitVec 8) (_s : State) : Host.Outcome State Fault Refusal := .refused (.reservedCommand ch)

end Sys2Proof.Machine
end

