-- ==== Sys2Proof/Machine/Packer.lean ====
section
/-! DEFINITION. The byte packer's instruction: END (41_byte_packer.md R84). -/

namespace Sys2Proof.Machine

/-- END (R84): in OPEN pad with zero units and produce the buffer; in DONE and FAILED nothing (R91, R92). -/
def execEnd (s : State) : Host.Outcome State Fault Refusal :=
  match s.st with
  | .OPEN => .next { pushUnits (List.replicate (fillerCount s) false) s with st := .DONE }
  | .DONE => .next s
  | .FAILED => .next s

end Sys2Proof.Machine
end

