-- ==== Sys2Proof/Machine/SymbolMap.lean ====
section
/-! DEFINITION. The symbol map: BIT0, BIT1, BADCHAR (40_symbol_map.md). -/

namespace Sys2Proof.Machine

/-- BIT0 (R70): emit `001`. -/
def execBit0 (s : State) : Host.Outcome State Fault Refusal := acceptBit false s

/-- BIT1 (R71): emit `110`. -/
def execBit1 (s : State) : Host.Outcome State Fault Refusal := acceptBit true s

/-- BADCHAR (R72): in OPEN the failure entry, at any `POS` (D13); in DONE and FAILED nothing (R91, R92). -/
def execBadChar (c : CharCode) (s : State) : Host.Outcome State Fault Refusal :=
  match s.st with
  | .OPEN => .next (raiseInvalidInput c s.pos s)
  | .DONE => .next s
  | .FAILED => .next s

end Sys2Proof.Machine
end

