-- ==== Sys2Proof/Machine/Dispatch.lean ====
section
/-! DEFINITION. One arm per instruction. -/

namespace Sys2Proof.Machine

def exec (i : Instr) (s : State) : Host.Outcome State Fault Refusal :=
  match i with
  | .bit0 => Sys2Proof.Machine.execBit0 s
  | .bit1 => Sys2Proof.Machine.execBit1 s
  | .badChar c => Sys2Proof.Machine.execBadChar c s
  | .endFrame => Sys2Proof.Machine.execEnd s
  | .start => Sys2Proof.Machine.execStart s
  | .reserved ch => Sys2Proof.Machine.execReserved ch s

end Sys2Proof.Machine
end

