-- ==== Sys2Proof/Machine/Perform.lean ====
section
/-! DEFINITION. What the LCE does with one input from outside, and with a whole list of them. -/

namespace Sys2Proof.Machine

/-- One step on one input: a command word is decoded and executed (00_scope.md R5, R6); reset puts every item at its
reset value (70_reset_and_hazards.md R170). -/
def perform (x : Input) (s : State) : Host.Outcome State Fault Refusal :=
  match x with
  | .command w => exec (decode w) s
  | .reset => .next (freshFrame s)

/-- The inputs one after another, each step complete before the next begins (00_scope.md R5, R6;
70_reset_and_hazards.md R177). -/
def performAll : List Input → State → Host.Outcome State Fault Refusal
  | [], s => .next s
  | x :: xs, s =>
    match perform x s with
    | .next t => performAll xs t
    | .fault r => .fault r
    | .refused r => .refused r

/-- Put a command word where the next step takes its input, before everything else that will be sent. -/
def sendNext (w : CmdWord) (s : State) : State := { s with inputs := .command w :: s.inputs }

end Sys2Proof.Machine
end

