-- ==== Sys2Proof/Machine/Step.lean ====
section
/-! DEFINITION. One step of the LCE: it takes the next input, if there is one (00_scope.md R5, R6). -/

namespace Sys2Proof.Machine

/-- One step. With nothing sent the LCE holds its state (60_exceptions.md R165). -/
def step (s : State) : Host.Outcome State Fault Refusal :=
  match s.inputs with
  | [] => .next s
  | x :: rest => perform x { s with inputs := rest }

/-- The state in which the very next step receives the command word `w` of `nbits` bits: the producer sends it next
(log entries 1, 2). A number that is no command word (over 10 bits) cannot be sent: then nothing changes
(log entry 5). -/
def State.withFetchWord (s : State) (nbits w : Nat) : State :=
  if w % 2 ^ nbits < 1024 then sendNext (BitVec.ofNat 10 (w % 2 ^ nbits)) s else s

end Sys2Proof.Machine
end

