-- ==== Sys2Proof/Machine/ClosedForm.lean ====
section
/-! DEFINITION. The closed forms the spec gives beside its pseudocode, as second definitions: 40_symbol_map.md R73 and
41_byte_packer.md R84. The meanings do not use them; statements say that they agree. -/

namespace Sys2Proof.Machine

/-- `V = (ACC << 3) | s`, at most 11 bits wide whatever `ACC` holds (R73). -/
def symbolAppended (b : LogicalBit) (s : State) : BitVec 11 :=
  (s.acc.setWidth 11 <<< 3) ||| (symNumber b).setWidth 11

/-- BIT0 and BIT1 in OPEN with room, in closed form (R73): with `t = CNT + 3` units, no byte when `t < 8`, else the top 8
of them are written and `t - 8` stay. -/
def acceptBitClosed (b : LogicalBit) (s : State) : State :=
  let t := s.cnt.toNat + 3
  let v := symbolAppended b s
  if t < 8 then
    { s with acc := v.setWidth 8, cnt := BitVec.ofNat 3 t, pos := s.pos + 1 }
  else
    let r := t - 8
    { s with
      out := s.out.write s.len ((v >>> r).setWidth 8), len := s.len + 1,
      acc := (v &&& BitVec.ofNat 11 (2 ^ r - 1)).setWidth 8, cnt := BitVec.ofNat 3 r, pos := s.pos + 1 }

/-- END in OPEN, in closed form (41_byte_packer.md R84). -/
def endClosed (s : State) : State :=
  if s.cnt.toNat = 0 then { s with st := .DONE }
  else
    { s with
      out := s.out.write s.len (s.acc <<< (8 - s.cnt.toNat)), len := s.len + 1, acc := 0x00#8, cnt := 0#3,
      st := .DONE }

end Sys2Proof.Machine
end

