-- ==== Sys2Proof/Machine/View.lean ====
section
/-! DEFINITION. What the producer and the consumer can read: the result view (42_frame_control.md R95), MemRead
(20_memory.md R37) and the single items (10_state.md R22). A read is a function of the state and changes nothing. -/

namespace Sys2Proof.Machine

/-- The bytes `OUT[0], ..., OUT[LEN-1]`. -/
def bufferOf (s : State) : List Byte := (List.range s.len).filterMap (fun i => s.out.read i)

/-- The result view's three answers (R95). -/
inductive View where
  | busy
  | ok (buffer : List Byte)
  | err (character : CharCode) (index : Nat)
  deriving DecidableEq, Repr

/-- The result view (R95). -/
def view (s : State) : View :=
  match s.st with
  | .OPEN => .busy
  | .DONE => .ok (bufferOf s)
  | .FAILED => .err s.errChar s.errPos

/-- The answer to a read: a value, or the refusal of the read. -/
inductive Answer (α : Type) where
  | value (v : α)
  | refused (r : Refusal)
  deriving DecidableEq, Repr

/-- The consumer's `MemRead(i, 1)` (20_memory.md R37): `OUT[i]` when `ST = DONE` and `i < LEN`, refused otherwise; a cell
that holds no value is refused too (log entry 12). -/
def memRead (i : Nat) (s : State) : Answer Byte :=
  if s.st = .DONE ∧ i < s.len then
    match s.out.read i with
    | some v => .value v
    | none => .refused .readUnavailable
  else .refused .readUnavailable

/-- Who reads (00_scope.md R6). -/
inductive Agent where
  | producer
  | consumer
  deriving DecidableEq, Repr

/-- The nine items of 10_state.md R10, as a read names them; they have names and no addresses (R22). -/
inductive Item where
  | ST | ACC | CNT | POS | LEN | OUT (i : Nat) | ERRCODE | ERRCHAR | ERRPOS
  deriving DecidableEq, Repr

/-- The value a read gives. -/
inductive ItemValue where
  | frameState (f : FrameState)
  | count (n : Nat)
  | byte (v : BitVec 8)
  | cause (c : BitVec 3)
  deriving DecidableEq, Repr

/-- The consumer's read of one item (10_state.md R22, last column). -/
def consumerRead (it : Item) (s : State) : Answer ItemValue :=
  match it with
  | .ST => .value (.frameState s.st)
  | .LEN => if s.st = .DONE then .value (.count s.len) else .refused .readUnavailable
  | .OUT i =>
    match memRead i s with
    | .value v => .value (.byte v)
    | .refused r => .refused r
  | .ERRCODE => if s.st = .FAILED then .value (.cause s.errCode) else .refused .readUnavailable
  | .ERRCHAR => if s.st = .FAILED then .value (.byte s.errChar) else .refused .readUnavailable
  | .ERRPOS => if s.st = .FAILED then .value (.count s.errPos) else .refused .readUnavailable
  | .POS => .refused .readUnavailable
  | .ACC => .refused .readUnavailable
  | .CNT => .refused .readUnavailable

/-- The producer's read of one item: it may poll `ST` and has no other access (R22). -/
def producerRead (it : Item) (s : State) : Answer ItemValue :=
  match it with
  | .ST => .value (.frameState s.st)
  | .LEN => .refused .readUnavailable
  | .OUT _ => .refused .readUnavailable
  | .ERRCODE => .refused .readUnavailable
  | .ERRCHAR => .refused .readUnavailable
  | .ERRPOS => .refused .readUnavailable
  | .POS => .refused .readUnavailable
  | .ACC => .refused .readUnavailable
  | .CNT => .refused .readUnavailable

/-- A read of one item by an agent (R22). -/
def readItem (a : Agent) (it : Item) (s : State) : Answer ItemValue :=
  match a with
  | .producer => producerRead it s
  | .consumer => consumerRead it s

end Sys2Proof.Machine
end

