-- ==== Sys2Proof/Machine/Adapter.lean ====
section
/-! DEFINITION. The surrounding software's calls on the adapter, not hardware: `apply` (44_surrounding_system.md R120 to
R123), chunking and `transmit` (R124 to R129). The adapter's answers are an input (log entry 16). -/

namespace Sys2Proof.Machine

/-- A TransferChunk (R124) with the byte offset it begins at (R128). -/
structure Chunk where
  offset : Nat
  payload : List Byte
  deriving DecidableEq, Repr

/-- The two categories of control requests (R121, R126). -/
inductive DeviceRequest where
  | configure (r : ConfigRequest)
  | data (c : Chunk)
  deriving DecidableEq, Repr

/-- The request code of a request (R121): free values. -/
def DeviceRequest.code : DeviceRequest → Nat
  | .configure r => r.code
  | .data _ => Config.dataRequestCode

/-- How the adapter answers one blocking call (R126, R132). -/
inductive Reply where
  | success
  | failure
  deriving DecidableEq, Repr

/-- How a call of the surrounding software ends. -/
inductive CallEnd where
  | success
  | fault (f : Fault)
  /-- A request has not been answered: the call has not returned (R132, 93_implementation_defined.md U7). -/
  | hanging
  | refused (r : Refusal)
  deriving DecidableEq, Repr

/-- What a call did: the requests issued, oldest first, how it ended, and the answers not yet used. -/
structure CallResult where
  issued : List DeviceRequest
  callEnd : CallEnd
  repliesLeft : List Reply
  deriving DecidableEq, Repr

/-- The fault of a failed request: DeviceConfigError (R123), or TransferError with the byte offset (R128). -/
def DeviceRequest.faultOf : DeviceRequest → Fault
  | .configure _ => .deviceConfig
  | .data c => .transfer c.offset

/-- Requests one at a time, in order, up to the first that fails or is not answered (R123, R126, R128, R132). -/
def issueAll : List DeviceRequest → List Reply → CallResult
  | [], rs => ⟨[], .success, rs⟩
  | q :: _, [] => ⟨[q], .hanging, []⟩
  | q :: _, .failure :: rs => ⟨[q], .fault q.faultOf, rs⟩
  | q :: qs, .success :: rs =>
    let r := issueAll qs rs
    ⟨q :: r.issued, r.callEnd, r.repliesLeft⟩

/-! ## apply -/

/-- The adapter's clock configuration as far as it is known (R122, R123). -/
inductive AdapterClock where
  /-- Nothing applied yet. -/
  | unconfigured
  /-- A configuration was begun and did not return successfully (R123, "unconfirmed/misconfigured"; log entry 17). -/
  | unconfirmed
  /-- The pair was applied; it overwrites any earlier one (R122). -/
  | configured (n m : Int)
  deriving DecidableEq, Repr

/-- The three requests of `apply`, mode, then N, then M (R120, R121, 90_conflicts.md C2, D28). -/
def applyRequests (pair : Int × Int) : List DeviceRequest :=
  [.configure Config.modeEnableRequest, .configure (Config.setNRequest pair.1),
   .configure (Config.setMRequest pair.2)]

/-- `apply(device_handle, pair)` (R120, R123). -/
def applyPair (pair : Int × Int) (replies : List Reply) : CallResult := issueAll (applyRequests pair) replies

/-- The clock after `apply` ended as given (R122, R123). -/
def clockAfter (pair : Int × Int) : CallEnd → AdapterClock
  | .success => .configured pair.1 pair.2
  | .fault _ => .unconfirmed
  | .hanging => .unconfirmed
  | .refused _ => .unconfirmed

/-! ## transmit -/

/-- Chunks of at most `m` bytes from byte offset `off` on; `fuel` bounds their number. -/
def chunksFrom (m : Nat) : Nat → Nat → List Byte → List Chunk
  | 0, _, _ => []
  | _ + 1, _, [] => []
  | fuel + 1, off, b :: bs => ⟨off, (b :: bs).take m⟩ :: chunksFrom m fuel (off + m) ((b :: bs).drop m)

/-- The chunks of a buffer (R125); each takes at least one byte when `1 ≤ m`, so its length bounds their number. -/
def chunksOf (m : Nat) (buffer : List Byte) : List Chunk := chunksFrom m buffer.length 0 buffer

/-- `transmit(device_handle, buffer, max_chunk_size)` (R125 to R129); chunk size 0 is refused (R125). -/
def transmit (buffer : List Byte) (maxChunkSize : Nat) (replies : List Reply) : CallResult :=
  if maxChunkSize = 0 then ⟨[], .refused .zeroChunkSize, replies⟩
  else issueAll ((chunksOf maxChunkSize buffer).map .data) replies

end Sys2Proof.Machine
end

