-- ==== Sys2Proof/Machine/Assembly.lean ====
section
/-! DEFINITION. The assembly syntax and the pseudo-instruction ENCODE: 30_encoding.md R61, R62. -/

namespace Sys2Proof.Machine

/-- The commands an assembly line stands for; `ENCODE "s"` is START, the characters in order, END (R62). -/
def lineCommands : AsmLine → List Command
  | .start => [.start]
  | .char c => [.char c]
  | .endFrame => [.endFrame]
  | .bit0 => [.char 0x30#8]
  | .bit1 => [.char 0x31#8]
  | .encode s => .start :: (s.map .char ++ [.endFrame])

/-- The command words of a program text. -/
def assemble (lines : List AsmLine) : List CmdWord := (lines.flatMap lineCommands).map Command.toWord

/-- The code of a written character, none when it needs more than 8 bits (R52; log entry 22). -/
def codeOf (c : Char) : Option CharCode :=
  if c.toNat < 256 then some (BitVec.ofNat 8 c.toNat) else none

/-- The codes of the characters up to a closing double quote that ends the line (R61, R62; log entry 22). -/
def quotedCodes : List Char → Option (List CharCode)
  | [] => none
  | ['"'] => some []
  | c :: rest =>
    if c = '"' then none
    else
      match codeOf c, quotedCodes rest with
      | some v, some vs => some (v :: vs)
      | _, _ => none

/-- A hexadecimal digit. -/
def hexDigit (c : Char) : Option Nat :=
  let n := c.toNat
  if 48 ≤ n ∧ n ≤ 57 then some (n - 48)
  else if 65 ≤ n ∧ n ≤ 70 then some (n - 55)
  else if 97 ≤ n ∧ n ≤ 102 then some (n - 87)
  else none

/-- The rest of a text after the given beginning, none when it does not begin so. -/
def afterText : List Char → List Char → Option (List Char)
  | [], rest => some rest
  | _ :: _, [] => none
  | p :: ps, c :: cs => if p = c then afterText ps cs else none

/-- The operand of a `CHAR` line: `'x'` or `0xNN` (R62). -/
def charOperand (cs : List Char) : Option CharCode :=
  match cs with
  | [q1, c, q2] => if q1 = '\'' ∧ q2 = '\'' then codeOf c else none
  | [z, x, hi, lo] =>
    if z = '0' ∧ x = 'x' then
      match hexDigit hi, hexDigit lo with
      | some h, some l => some (BitVec.ofNat 8 (16 * h + l))
      | _, _ => none
    else none
  | _ => none

/-- One written line of the assembly syntax (R62); none when it is no line of it (log entry 22). -/
def parseLine (cs : List Char) : Option AsmLine :=
  if cs = ['S', 'T', 'A', 'R', 'T'] then some .start
  else if cs = ['E', 'N', 'D'] then some .endFrame
  else if cs = ['B', 'I', 'T', '0'] then some .bit0
  else if cs = ['B', 'I', 'T', '1'] then some .bit1
  else
    match afterText ['C', 'H', 'A', 'R', ' '] cs with
    | some rest => (charOperand rest).map .char
    | none =>
      match afterText ['E', 'N', 'C', 'O', 'D', 'E', ' ', '"'] cs with
      | some rest => (quotedCodes rest).map .encode
      | none => none

end Sys2Proof.Machine
end

