-- ==== Sys2Proof/Machine/Divisors.lean ====
section
/-! DEFINITION. The clock divisor calculator, reference arithmetic and not hardware: 43_clock_divisor_reference.md. It
reads nothing but its arguments (R107). -/

namespace Sys2Proof.Machine

/-- The arguments of `divisors_for` (R101, R102) and its tolerance (R105). They are integers so that the calls outside
the domain can be written down (log entry 13). -/
structure DivisorQuery where
  /-- `T`. -/
  targetRate : Int
  /-- `F`. -/
  referenceFrequency : Int
  /-- `C`. -/
  candidates : List Int
  mLo : Int
  mHi : Int
  /-- `TOL_num`, default 0 (R105, D26). -/
  tolNum : Int := 0
  /-- `TOL_den`. -/
  tolDen : Int := 1
  deriving DecidableEq, Repr

/-- A positive power of two (R102). -/
def isPowerOfTwo (n : Int) : Bool := decide (1 ≤ n) && 2 ^ Nat.log2 n.toNat == n.toNat

/-- The domain of R102. -/
def DivisorQuery.inDomain (q : DivisorQuery) : Bool :=
  decide (1 ≤ q.targetRate) && decide (1 ≤ q.referenceFrequency) && q.candidates.all isPowerOfTwo
    && decide (1 ≤ q.mLo) && decide (q.mLo ≤ q.mHi) && decide (0 ≤ q.tolNum) && decide (1 ≤ q.tolDen)

/-- `M = (2*F + N*T) div (2*N*T)`: nearest integer to `F/(N*T)`, the larger one half-way (R104). -/
def roundedM (q : DivisorQuery) (n : Int) : Int :=
  (2 * q.referenceFrequency + n * q.targetRate) / (2 * n * q.targetRate)

/-- The tolerance test in integers (R105). -/
def withinTolerance (q : DivisorQuery) (n m : Int) : Bool :=
  decide (((q.referenceFrequency - n * m * q.targetRate).natAbs : Int) * q.tolDen ≤ q.tolNum * n * m * q.targetRate)

/-- A candidate fits: its rounded second factor is in the range and passes the tolerance test (R103, R105, R106). -/
def candidateFits (q : DivisorQuery) (n : Int) : Bool :=
  decide (q.mLo ≤ roundedM q n) && decide (roundedM q n ≤ q.mHi) && withinTolerance q n (roundedM q n)

/-- Put `n` into an ascending list. -/
def insertAscending (n : Int) : List Int → List Int
  | [] => [n]
  | k :: rest => if n ≤ k then n :: k :: rest else k :: insertAscending n rest

/-- The candidates in ascending order (R106). -/
def ascending : List Int → List Int
  | [] => []
  | n :: rest => insertAscending n (ascending rest)

/-- `divisors_for` (R106): the first fitting candidate in ascending order, else UnrepresentableRateError (R108); a call
outside the domain is refused (R102). -/
def divisorsFor (q : DivisorQuery) : Host.Outcome (Int × Int) Fault Refusal :=
  if q.inDomain then
    match (ascending q.candidates).find? (candidateFits q) with
    | some n => .next (n, roundedM q n)
    | none => .fault .unrepresentableRate
  else .refused .divisorsOutsideDomain

end Sys2Proof.Machine
end

