-- ==== Sys2Proof/Machine/Reference.lean ====
section
/-! DEFINITION. The reference function the steps implement, and the decoder that the spec gives as a test aid:
41_byte_packer.md R85, R87. -/

namespace Sys2Proof.Machine

/-- `expand(bits)`: the LineSymbols in input order (R85). -/
def expand (bits : List LogicalBit) : List LineUnit := bits.flatMap sym

/-- `pad(u)`: zero units up to a multiple of 8 (R85, 90_conflicts.md C1). -/
def pad (u : List LineUnit) : List LineUnit := u ++ List.replicate ((8 - u.length % 8) % 8) false

/-- The unit at a place of a group, as a number. -/
def unitAt (w : List LineUnit) (k : Nat) : Nat := (w.getD k false).toNat

/-- `byte(w)`: 8 units, the first of weight 128 (R85, 20_memory.md R33). -/
def byteOf (w : List LineUnit) : Byte :=
  BitVec.ofNat 8 (unitAt w 0 * 128 + unitAt w 1 * 64 + unitAt w 2 * 32 + unitAt w 3 * 16 + unitAt w 4 * 8
    + unitAt w 5 * 4 + unitAt w 6 * 2 + unitAt w 7)

/-- `pack(u)`: each 8 units one byte (R85). -/
def pack (u : List LineUnit) : List Byte :=
  (List.range (u.length / 8)).map (fun i => byteOf ((u.drop (8 * i)).take 8))

/-- `SymbolStream = pad(expand(bits))` (R85). -/
def symbolStream (bits : List LogicalBit) : List LineUnit := pad (expand bits)

/-- `encode(bits)` (R85). -/
def encodeBits (bits : List LogicalBit) : List Byte := pack (symbolStream bits)

/-- The result of `encode_str`: a PackedBuffer or InvalidInputError with its payload (30_encoding.md R63). -/
inductive EncodeResult where
  | packedBuffer (buffer : List Byte)
  | invalidInputError (character : CharCode) (index : Nat)
  deriving DecidableEq, Repr

/-- The first character from index `i` on that is neither '0' nor '1', with its index. -/
def firstInvalid : Nat → List CharCode → Option (CharCode × Nat)
  | _, [] => none
  | i, c :: rest => if c ≠ 0x30#8 ∧ c ≠ 0x31#8 then some (c, i) else firstInvalid (i + 1) rest

/-- `s[i] - 0x30` of a valid character, as a logical bit. -/
def bitOfChar (c : CharCode) : LogicalBit := (c - 0x30#8) != 0#8

/-- The character of a logical bit (30_encoding.md R52). -/
def charOfBit : LogicalBit → CharCode
  | false => 0x30#8
  | true => 0x31#8

/-- `encode_str(s)` (R85). -/
def encodeStr (s : List CharCode) : EncodeResult :=
  match firstInvalid 0 s with
  | some (c, i) => .invalidInputError c i
  | none => .packedBuffer (encodeBits (s.map bitOfChar))

/-- The result view that shows a result (42_frame_control.md R96). -/
def EncodeResult.toView : EncodeResult → View
  | .packedBuffer b => .ok b
  | .invalidInputError c i => .err c i

/-! ## The test aid `decode` (R87), not part of the hardware -/

/-- The 8 units of a byte, bit 7 first. -/
def unitsOfByte (v : Byte) : List LineUnit :=
  [v.getLsbD 7, v.getLsbD 6, v.getLsbD 5, v.getLsbD 4, v.getLsbD 3, v.getLsbD 2, v.getLsbD 1, v.getLsbD 0]

/-- The loop of `decode`: groups of three units up to the first that is no symbol, or fewer than three. -/
def decodeUnits : List LineUnit → List LogicalBit
  | a :: b :: c :: rest =>
    if [a, b, c] = sym false then false :: decodeUnits rest
    else if [a, b, c] = sym true then true :: decodeUnits rest
    else []
  | _ => []

/-- The loop's result on any bytes (R87). -/
def decodeLoop (buf : List Byte) : List LogicalBit := decodeUnits (buf.flatMap unitsOfByte)

/-- `decode(buf)`: defined only on outputs of `encode`; on other bytes it has no meaning and is refused (R87;
93_implementation_defined.md U13; log entry 14). -/
def decodeBuffer (buf : List Byte) : Answer (List LogicalBit) :=
  if encodeBits (decodeLoop buf) = buf then .value (decodeLoop buf) else .refused .notAnEncodedBuffer

/-! ## The units a state holds (10_state.md R20 I-3) -/

/-- `pending(ACC, CNT)`: bits `CNT-1` down to 0 of `ACC`. -/
def pendingUnits (acc : BitVec 8) : Nat → List LineUnit
  | 0 => []
  | n + 1 => acc.getLsbD n :: pendingUnits acc n

/-- The units written so far followed by the units pending. -/
def emittedUnits (s : State) : List LineUnit :=
  (bufferOf s).flatMap unitsOfByte ++ pendingUnits s.acc s.cnt.toNat

end Sys2Proof.Machine
end

