-- ==== Sys2Proof/Machine/Invocation.lean ====
section
/-! DEFINITION. One invocation of the whole transmitter, the surrounding software and not hardware:
44_surrounding_system.md R130 to R139. Its first stage is the LCE's own frame. -/

namespace Sys2Proof.Machine

/-! ## The session's phases (R130) -/

/-- The phases of a transmission session. -/
inductive Phase where
  | Idle | Configuring | Transmitting | Done | Failed
  deriving DecidableEq, Repr

/-- What moves a session on. -/
inductive PhaseEvent where
  /-- The session begins to configure the adapter. -/
  | begin
  /-- The phase's calls returned successfully. -/
  | succeeded
  /-- One of the phase's calls failed. -/
  | failed
  deriving DecidableEq, Repr

/-- The transitions of R130 and no others. -/
def Phase.next : Phase → PhaseEvent → Option Phase
  | .Idle, .begin => some .Configuring
  | .Configuring, .succeeded => some .Transmitting
  | .Transmitting, .succeeded => some .Done
  | .Configuring, .failed => some .Failed
  | .Transmitting, .failed => some .Failed
  | .Idle, .succeeded => none
  | .Idle, .failed => none
  | .Configuring, .begin => none
  | .Transmitting, .begin => none
  | .Done, _ => none
  | .Failed, _ => none

/-! ## The invocation -/

/-- What the caller supplies (R133, R101, R125, 00_scope.md R7), and the identifier pair the adapter is located by
(R134, a parameter; log entry 30). -/
structure Job where
  device : DeviceId
  chars : List CharCode
  query : DivisorQuery
  maxChunkSize : Nat
  cfg : Config
  deriving DecidableEq, Repr

/-- What the outside decides: which devices are attached (R134), the adapter's answers (R126), its clock before (R122), and
which of the lookup and the divisor search is done first, which the source leaves open (R139 step 3; log entry 18). -/
structure Environment where
  attached : List DeviceId
  replies : List Reply
  clock : AdapterClock
  divisorsFirst : Bool
  deriving DecidableEq, Repr

/-- A device interaction, as the trace records it. -/
inductive DeviceEvent where
  /-- The adapter is looked for by its identifier pair (R134; 90_conflicts.md C8: "looking for the device is a device
  call"). -/
  | lookup (device : DeviceId)
  /-- The device handle is acquired (R132). -/
  | acquire
  | request (r : DeviceRequest)
  /-- The device handle is released (R132, R135). -/
  | release
  deriving DecidableEq, Repr

/-- An error as it reaches the caller, with its context (R137). -/
inductive SystemError where
  | invalidInput (character : CharCode) (index : Nat)
  | device (f : Fault)
  deriving DecidableEq, Repr

/-- The kind of an error (60_exceptions.md R150). -/
def SystemError.kind : SystemError → ErrorKind
  | .invalidInput _ _ => .invalidInput
  | .device f => f.kind

/-- The context an error is surfaced with (R137, R150). -/
def SystemError.context : SystemError → ErrorContext
  | .invalidInput c i => .character c i
  | .device (.deviceNotFound d) => .missingDevice d
  | .device .deviceConfig => .nothing
  | .device .unrepresentableRate => .nothing
  | .device (.transfer off) => .byteOffset off

/-- How an invocation ends. -/
inductive InvocationEnd where
  | success (buffer : List Byte)
  | error (e : SystemError)
  /-- A blocking call has not returned (R132). -/
  | hanging
  | refused (r : Refusal)
  deriving DecidableEq, Repr

/-- What an invocation did. -/
structure Invocation where
  /-- Device interactions, oldest first. -/
  events : List DeviceEvent
  /-- The session's phases, oldest first (R130). -/
  phases : List Phase
  /-- The adapter's clock afterwards (R122). -/
  clock : AdapterClock
  /-- Whether the device handle is still held (R132). -/
  handleHeld : Bool
  invEnd : InvocationEnd
  deriving DecidableEq, Repr

/-- Step 1 of R139: the LCE runs `ENCODE "s"` (30_encoding.md R62) from the state after reset. -/
def encodeFrame (cfg : Config) (chars : List CharCode) : Host.Outcome State Fault Refusal :=
  performAll ((assemble [.encode chars]).map .command) { State.reset with cfg := cfg }

/-- An end of the invocation while the session is still Idle and no handle is held (R130, C7). -/
def endIdle (events : List DeviceEvent) (env : Environment) (e : InvocationEnd) : Invocation :=
  { events := events, phases := [.Idle], clock := env.clock, handleHeld := false, invEnd := e }

/-- The end of an invocation by how `transmit` ended, with the device events up to then. The handle is released on every
path that ends (R132, R135); a call that has not returned still holds it. -/
def afterTransmit (buffer : List Byte) (clock : AdapterClock) (events : List DeviceEvent) : CallEnd → Invocation
  | .success =>
    { events := events ++ [.release], phases := [.Idle, .Configuring, .Transmitting, .Done], clock := clock,
      handleHeld := false, invEnd := .success buffer }
  | .fault f =>
    { events := events ++ [.release], phases := [.Idle, .Configuring, .Transmitting, .Failed], clock := clock,
      handleHeld := false, invEnd := .error (.device f) }
  | .hanging =>
    { events := events, phases := [.Idle, .Configuring, .Transmitting], clock := clock, handleHeld := true,
      invEnd := .hanging }
  | .refused r =>
    { events := events, phases := [.Idle, .Configuring, .Transmitting], clock := clock, handleHeld := true,
      invEnd := .refused r }

/-- What follows `apply`, by how it ended: only after success is anything transmitted (R123). -/
def afterApply (buffer : List Byte) (clock : AdapterClock) (events : List DeviceEvent) (t : CallResult) :
    CallEnd → Invocation
  | .success => afterTransmit buffer clock (events ++ t.issued.map .request) t.callEnd
  | .fault f =>
    { events := events ++ [.release], phases := [.Idle, .Configuring, .Failed], clock := clock, handleHeld := false,
      invEnd := .error (.device f) }
  | .hanging =>
    { events := events, phases := [.Idle, .Configuring], clock := clock, handleHeld := true, invEnd := .hanging }
  | .refused r =>
    { events := events, phases := [.Idle, .Configuring], clock := clock, handleHeld := true, invEnd := .refused r }

/-- Steps 4 to 6 of R139, with the handle acquired: configure, then transmit with the answers left. -/
def configureAndTransmit (buffer : List Byte) (pair : Int × Int) (job : Job) (env : Environment) : Invocation :=
  let a := applyPair pair env.replies
  afterApply buffer (clockAfter pair a.callEnd) ([.lookup job.device, .acquire] ++ a.issued.map .request)
    (transmit buffer job.maxChunkSize a.repliesLeft) a.callEnd

/-- The adapter is there: a device with its identifier pair is attached (R134). -/
def adapterFound (job : Job) (env : Environment) : Bool := env.attached.contains job.device

/-- Steps 2 and 3 of R139, in the order the environment says. When the adapter was found and the divisor search then
fails, the handle acquired is released (R132; log entry 19). -/
def locateAndDivide (buffer : List Byte) (job : Job) (env : Environment) : Invocation :=
  match adapterFound job env, env.divisorsFirst, divisorsFor job.query with
  | true, _, .next pair => configureAndTransmit buffer pair job env
  | true, true, .fault f => endIdle [] env (.error (.device f))
  | true, false, .fault f => endIdle [.lookup job.device, .acquire, .release] env (.error (.device f))
  | false, false, _ => endIdle [.lookup job.device] env (.error (.device (.deviceNotFound job.device)))
  | false, true, .next _ => endIdle [.lookup job.device] env (.error (.device (.deviceNotFound job.device)))
  | false, true, .fault f => endIdle [] env (.error (.device f))
  | _, _, .refused r => endIdle [] env (.refused r)

/-- One invocation (R139): validate and encode first; only a produced buffer reaches the device. -/
def invoke (job : Job) (env : Environment) : Invocation :=
  match encodeFrame job.cfg job.chars with
  | .next t =>
    match view t with
    | .ok buffer => locateAndDivide buffer job env
    | .err c i => endIdle [] env (.error (.invalidInput c i))
    | .busy => endIdle [] env .hanging
  | .fault f => endIdle [] env (.error (.device f))
  | .refused r => endIdle [] env (.refused r)

/-- An invocation has ended, so that another may use the adapter (R132, R163: never two at once). -/
def InvocationEnd.isEnded : InvocationEnd → Bool
  | .success _ => true
  | .error _ => true
  | .hanging => false
  | .refused _ => false

/-- Invocations one after another on one adapter. What crosses from one to the next is the adapter's clock and nothing
else (R122; 10_state.md R21; 90_conflicts.md C5); after one that has not ended no other begins. -/
def invokeAll : List (Job × Environment) → AdapterClock → List Invocation
  | [], _ => []
  | (job, env) :: rest, clock =>
    let r := invoke job { env with clock := clock }
    if r.invEnd.isEnded then r :: invokeAll rest r.clock else [r]

/-! ## Exit behaviour (R135) -/

/-- What is printed, and the exit status of a failure. -/
inductive Report where
  | success (hex : List Char) (indicator : List Char)
  | failure (diagnostic : List Char) (status : Nat)
  deriving DecidableEq, Repr

/-- The report of an invocation that ended (R135): texts and status are free values, the status non-zero
(log entry 21). -/
def reportOf : InvocationEnd → Option Report
  | .success b => some (.success (Config.hexText b) Config.successText)
  | .error e =>
    let code := e.kind.code.toNat
    some (.failure (Config.diagnosticText code e.context) (Config.failureStatusPred code + 1))
  | .hanging => none
  | .refused _ => none

/-- What the whole process does, in order. -/
inductive ProcessEvent where
  | device (e : DeviceEvent)
  /-- The outcome is reported: the texts are printed, and after a failure the process terminates (R135). -/
  | reported (r : Report)
  deriving DecidableEq, Repr

/-- The process of an invocation: its device events, the release of the handle the last of them (R132), and only then the
report, "before the process reports its outcome" (R137). One that has not ended reports nothing. -/
def Invocation.process (v : Invocation) : List ProcessEvent :=
  v.events.map .device ++ (reportOf v.invEnd).toList.map .reported

end Sys2Proof.Machine
end

