-- ==== Sys2Proof/Machine/Rate.lean ====
section
/-! DEFINITION. What the adapter's unit rate means for the encoder's output: 43_clock_divisor_reference.md R110,
70_reset_and_hazards.md R182, R186. Timing of the adapter and not of the LCE; no rule of the LCE depends on it. -/

namespace Sys2Proof.Machine

/-- The units a frame of `l` logical bits occupies, filler included: `8 * ceil(3l/8)` (R110, R182). -/
def frameUnits (l : Nat) : Nat := 8 * ((3 * l + 7) / 8)

/-- How long so many units last at a rate in units per second, in whole microseconds. -/
def microseconds (units rate : Nat) : Nat := units * 1000000 / rate

end Sys2Proof.Machine
end

