-- ==== Sys2Proof/Safety.lean ====
section
/-! DEFINITION. What a good state is (10_state.md R20), what a good producer sends (70_reset_and_hazards.md R173 to R178),
and the terms the statements use. -/

namespace Sys2Proof.Machine

/-! ## The invariants of 10_state.md R20 -/

/-- The three error registers hold no error (R20 I-6). -/
def noErrorRecorded (s : State) : Prop := s.errCode = 0#3 ∧ s.errChar = 0#8 ∧ s.errPos = 0

/-- The part of R20 that depends on `ST`: I-2, I-4 to I-6. -/
def statusInv (s : State) : Prop :=
  match s.st with
  | .OPEN => 3 * s.pos = 8 * s.len + s.cnt.toNat ∧ noErrorRecorded s
  | .DONE => s.cnt = 0#3 ∧ s.acc = 0#8 ∧ s.len = (3 * s.pos + 7) / 8 ∧ noErrorRecorded s
  | .FAILED =>
    s.errCode = 1#3 ∧ s.len = 0 ∧ s.cnt = 0#3 ∧ s.acc = 0#8 ∧ s.out = [] ∧ s.errPos = s.pos ∧
      s.errChar ≠ 0x30#8 ∧ s.errChar ≠ 0x31#8

/-- The invariant of the state alone: R20 I-1, I-2, I-4 to I-7, the memory's canonical form, and the bound of `POS` by a
finite `LMAX` (10_state.md R14). -/
structure StateInv (s : State) : Prop where
  /-- The memory is in its canonical form. -/
  memory : s.out.wf
  /-- I-7: exactly the cells `0 .. LEN-1` hold a value. -/
  cells : ∀ i, (s.out.read i).isSome = true ↔ i < s.len
  /-- I-1. -/
  pending : s.acc.toNat < 2 ^ s.cnt.toNat
  /-- I-2, I-4 (but its last clause), I-5, I-6. -/
  status : statusInv s
  /-- `POS` never passes `LMAX` (R14). -/
  capacity : ∀ l, s.cfg.lmax = some l → s.pos ≤ l

/-- R20 I-3 and the last clause of I-4, for the logical bits `bits` accepted so far in the frame. -/
structure StreamInv (bits : List LogicalBit) (s : State) : Prop where
  state : StateInv s
  /-- `POS` counts the accepted bits (R14). -/
  accepted : bits.length = s.pos
  /-- I-3. -/
  stream : s.st = .OPEN → emittedUnits s = expand bits
  /-- I-4. -/
  produced : s.st = .DONE → bufferOf s = encodeBits bits

/-- The logical bits accepted in the frame after one more input (10_state.md R14, R20: a valid character in OPEN adds
its bit; START and reset begin again; nothing else changes them). -/
def acceptedAfter (x : Input) (s : State) (bits : List LogicalBit) : List LogicalBit :=
  match x with
  | .reset => []
  | .command w =>
    match decode w with
    | .bit0 => if s.st = .OPEN then bits ++ [false] else bits
    | .bit1 => if s.st = .OPEN then bits ++ [true] else bits
    | .badChar _ => bits
    | .endFrame => bits
    | .start => []
    | .reserved _ => bits

/-! ## What the LCE is, without the model's two fields -/

/-- `s` and `t` agree on the nine items of 10_state.md R10. -/
def sameItems (s t : State) : Prop :=
  s.st = t.st ∧ s.acc = t.acc ∧ s.cnt = t.cnt ∧ s.pos = t.pos ∧ s.len = t.len ∧ s.out = t.out ∧
    s.errCode = t.errCode ∧ s.errChar = t.errChar ∧ s.errPos = t.errPos

/-- Every item at the value of 10_state.md R23. -/
def atResetValues (s : State) : Prop := sameItems s State.reset

/-- The terminal states of a frame (42_frame_control.md R97). -/
def terminal (s : State) : Prop := s.st = .DONE ∨ s.st = .FAILED

/-! ## Inputs -/

/-- `CHAR(c)` as an input. -/
def charInput (c : CharCode) : Input := .command (Command.char c).toWord

/-- `END` as an input. -/
def endInput : Input := .command Command.endFrame.toWord

/-- `START` as an input. -/
def startInput : Input := .command Command.start.toWord

/-- The commands of a frame without its START: the characters in order, then END (00_scope.md R9). -/
def frameInputs (chars : List CharCode) : List Input := chars.map charInput ++ [endInput]

/-- Whether an input opens a fresh frame: a START word or reset. -/
def opensFrame : Input → Bool
  | .reset => true
  | .command w => decode w == .start

/-- The number of valid characters before the first invalid one (42_frame_control.md R96). -/
def validBeforeInvalid (chars : List CharCode) : Nat := (chars.takeWhile validChar).length

/-- A frame of these characters fits the capacity (R96, R178). -/
def fitsCapacity (c : Config) (chars : List CharCode) : Prop := ∀ l, c.lmax = some l → validBeforeInvalid chars ≤ l

/-! ## The producer's duties (70_reset_and_hazards.md R173 to R178, 30_encoding.md R58) -/

/-- Where a producer stands in its frame. -/
inductive Stage where
  /-- A frame is open and `n` valid characters were sent. -/
  | opened (n : Nat)
  /-- An invalid character was sent: the rest of the string and its END may follow (42_frame_control.md R92). -/
  | failed
  /-- END was sent. -/
  | ended
  deriving DecidableEq, Repr

/-- One more valid character fits `LMAX` (R178). -/
def roomFor (c : Config) (n : Nat) : Bool :=
  match c.lmax with
  | none => true
  | some l => decide (n < l)

/-- A producer that keeps its duties: no reserved word (30_encoding.md R58), one END per frame and then START or reset
(R175), and at most `LMAX` valid characters (R178). -/
def disciplined (c : Config) : Stage → List Input → Bool
  | _, [] => true
  | _, .reset :: rest => disciplined c (.opened 0) rest
  | g, .command w :: rest =>
    match decode w, g with
    | .start, _ => disciplined c (.opened 0) rest
    | .reserved _, _ => false
    | _, .ended => false
    | .endFrame, .opened _ => disciplined c .ended rest
    | .endFrame, .failed => disciplined c .ended rest
    | .bit0, .opened n => roomFor c n && disciplined c (.opened (n + 1)) rest
    | .bit1, .opened n => roomFor c n && disciplined c (.opened (n + 1)) rest
    | .badChar _, .opened _ => disciplined c .failed rest
    | .bit0, .failed => disciplined c .failed rest
    | .bit1, .failed => disciplined c .failed rest
    | .badChar _, .failed => disciplined c .failed rest

/-! ## Runs -/

/-- A run that is neither a fault nor a refusal: the only ones the spec gives a meaning (00_scope.md R8, "Refuse"). -/
def answersNext {σ φ ρ : Type} (o : Host.Outcome σ φ ρ) : Prop := ∃ t, o = .next t

/-- `k` steps, stopping at the first that does not answer a next state: `Host.Core.run` of the machine, written over
`State` (Laws/Ops.lean says that they are the same). -/
def runSteps : Nat → State → Host.Outcome State Fault Refusal
  | 0, s => .next s
  | k + 1, s =>
    match step s with
    | .next t => runSteps k t
    | .fault r => .fault r
    | .refused r => .refused r

/-- The state after reset with the given parameters and inputs. -/
def resetWith (c : Config) (xs : List Input) : State := { State.reset with cfg := c, inputs := xs }

/-- The same state with other inputs to come. -/
def withInputs (s : State) (xs : List Input) : State := { s with inputs := xs }

end Sys2Proof.Machine
end

