-- ==== Sys2Proof/Certificates/Slice0/Obligations.lean ====
section
/-! DEFINITION. The statements for the provers. Each docstring names the rule of spec/ it formalises. -/

open Sys2Proof Sys2Proof.Machine

/-! ## Encoding -/

/-- Every well-formed instruction decodes from its own word, with every operand value; every word decodes to a
well-formed instruction, whose word differs from it only in the ignored field of END and START. -/
def Obligations.DecodeEncodeRoundTrip : Prop :=
  (∀ i : Instr, i.wellFormed = true → decode (encode i) = i) ∧
  (∀ w : CmdWord, (decode w).wellFormed = true ∧ encode (decode w) = canonicalWord w)

/-- 30_encoding.md R56: the first row that matches decides and every word has one; exactly one row matches without regard
to order; rows 3 to 6 are disjoint; the counts of words; and the BADCHAR row replaced by seven disjoint patterns. The
clause on the seven patterns is an inference that R56 marks as its own, and rests on R52. -/
def Obligations.DecodingFollowsTheOpcodeMap : Prop :=
  (∀ w : CmdWord, tableMnemonic w = some (decode w).mnemonic) ∧
  (∀ w : CmdWord, (opcodeRows.filter (fun r => r.hitsAlone w)).map OpcodeRow.mnemonic = [(decode w).mnemonic]) ∧
  (∀ w : CmdWord, ((opcodeRows.drop 2).filter (fun r => r.hits w)).length = 1) ∧
  (∀ w : CmdWord, ∀ c, decode w = .badChar c → c = chField w) ∧
  (∀ w : CmdWord, (badCharPatterns.filter (fun p => (w &&& p.2) == p.1)).length =
    if (decode w).mnemonic = .BADCHAR then 1 else 0) ∧
  (∀ m : Mnemonic, ((List.range 1024).countP fun n => (decode (BitVec.ofNat 10 n)).mnemonic = m) =
    match m with
    | .BIT0 => 1
    | .BIT1 => 1
    | .BADCHAR => 254
    | .END => 256
    | .START => 256
    | .RESERVED => 256)

/-- Words written out from 95_test_vectors.md 2.1 decode to the instruction listed there (a sanity statement). -/
def Obligations.ListedWordsDecodeAsListed : Prop :=
  decodeTableWord 16 0x030 = some .bit0 ∧ decodeTableWord 16 0x031 = some .bit1 ∧
  decodeTableWord 16 0x02F = some (.badChar 0x2F#8) ∧ decodeTableWord 16 0x0B0 = some (.badChar 0xB0#8) ∧
  decodeTableWord 16 0x130 = some .endFrame ∧ decodeTableWord 16 0x231 = some .start ∧
  decodeTableWord 16 0x3FF = some (.reserved 0xFF#8)

/-- 30_encoding.md R50, R51: the word of each of the three commands decodes to the instruction the command is; a
character is BIT0, BIT1 or BADCHAR by its code; and every word outside the reserved quarter is such a command. -/
def Obligations.CommandsDecodeByTheirCharacter : Prop :=
  (∀ k : Command, decode k.toWord = k.toInstr) ∧
  (∀ c : CharCode, decode (Command.char c).toWord =
    if c = 0x30#8 then .bit0 else if c = 0x31#8 then .bit1 else .badChar c) ∧
  (∀ w : CmdWord, kindField w ≠ 0b11#2 → ∃ k : Command, decode w = k.toInstr)

/-- 30_encoding.md R59: `ch` of END and START takes no part in decoding, so what the word does is the same for all 256
values. -/
def Obligations.EndAndStartIgnoreTheirCharField : Prop :=
  ∀ (ch : BitVec 8) (s : State),
    decode (joinFields 0b01#2 ch) = .endFrame ∧ decode (joinFields 0b10#2 ch) = .start ∧
    perform (.command (joinFields 0b01#2 ch)) s = exec .endFrame s ∧
    perform (.command (joinFields 0b10#2 ch)) s = exec .start s

/-- 30_encoding.md R58: the words with `kind = 0b11` are reserved and refused, in every state; RESERVED never answers a
next state. -/
def Obligations.ReservedWordsAreRefused : Prop :=
  (∀ w : CmdWord, 0x300 ≤ w.toNat ↔ decode w = .reserved (chField w)) ∧
  (∀ (w : CmdWord) (s : State), 0x300 ≤ w.toNat → perform (.command w) s = .refused (.reservedCommand (chField w))) ∧
  (∀ (ch : BitVec 8) (s : State), exec (.reserved ch) s = .refused (.reservedCommand ch))

/-- 30_encoding.md R53: a character is valid exactly when `ch[7:1] = 0b0011000`, and then the logical bit is `ch[0]`. The
spec derives it from R52. -/
def Obligations.LogicalBitIsTheLowBitOfTheCode : Prop :=
  ∀ c : CharCode,
    logicalBit? c = (if c.extractLsb' 1 7 = 0b0011000#7 then some (c.getLsbD 0) else none) ∧
    (∀ b, logicalBit? c = some b →
      decode (Command.char c).toWord = if b then .bit1 else .bit0)

/-! ## The symbol map -/

/-- 40_symbol_map.md R70: BIT0 in OPEN with room pushes 0, 0, 1 and advances `POS`, which comes to the closed form of R73;
refused at `POS = LMAX`; in DONE and FAILED nothing changes. Its word is 0x030. A byte is written exactly when `CNT` is
5, 6 or 7, never two. The closed form is the spec's own inference (R73), and in states with `ACC ≥ 2^CNT`, which no run
reaches, the model's widening of it to 11 bits (log entry 10). -/
def Obligations.Bit0EmitsSymbol001 : Prop :=
  decode 0x030#10 = .bit0 ∧
  ∀ s : State,
    (s.st = .OPEN → s.cfg.lmax ≠ some s.pos →
      exec .bit0 s =
        .next { pushUnit true (pushUnit false (pushUnit false s)) with pos := s.pos + 1 } ∧
      exec .bit0 s = .next (acceptBitClosed false s) ∧
      (acceptBitClosed false s).len = s.len + (if 5 ≤ s.cnt.toNat then 1 else 0)) ∧
    (s.st = .OPEN → s.cfg.lmax = some s.pos → exec .bit0 s = .refused .capacityExceeded) ∧
    (s.st = .DONE ∨ s.st = .FAILED → exec .bit0 s = .next s)

/-- 40_symbol_map.md R71: BIT1 in OPEN with room pushes 1, 1, 0 and advances `POS`, which comes to the closed form of R73;
refused at `POS = LMAX`; in DONE and FAILED nothing changes. Its word is 0x031. The closed form is the spec's own inference
(R73), and in states with `ACC ≥ 2^CNT`, which no run reaches, the model's widening of it to 11 bits (log entry 10). -/
def Obligations.Bit1EmitsSymbol110 : Prop :=
  decode 0x031#10 = .bit1 ∧
  ∀ s : State,
    (s.st = .OPEN → s.cfg.lmax ≠ some s.pos →
      exec .bit1 s =
        .next { pushUnit false (pushUnit true (pushUnit true s)) with pos := s.pos + 1 } ∧
      exec .bit1 s = .next (acceptBitClosed true s) ∧
      (acceptBitClosed true s).len = s.len + (if 5 ≤ s.cnt.toNat then 1 else 0)) ∧
    (s.st = .OPEN → s.cfg.lmax = some s.pos → exec .bit1 s = .refused .capacityExceeded) ∧
    (s.st = .DONE ∨ s.st = .FAILED → exec .bit1 s = .next s)

/-- 40_symbol_map.md R72 with the failure entry of 60_exceptions.md R155: BADCHAR in OPEN, at any `POS`, records the
character and its index, discards the output and fails the frame, everything else unchanged; in DONE and FAILED nothing
changes. -/
def Obligations.BadCharFailsTheFrame : Prop :=
  (∀ c : CharCode, c ≠ 0x30#8 → c ≠ 0x31#8 → decode (joinFields 0b00#2 c) = .badChar c) ∧
  ∀ (c : CharCode) (s : State),
    (s.st = .OPEN →
      exec (.badChar c) s =
        .next { s with errCode := 1#3, errChar := c, errPos := s.pos, len := 0, acc := 0#8, cnt := 0#3, out := [],
                       st := .FAILED }) ∧
    (s.st = .DONE ∨ s.st = .FAILED → exec (.badChar c) s = .next s)

/-- The frame of BIT0 and BIT1: `ST`, the error registers, the parameters and the inputs to come are unchanged; every
cell but `OUT[LEN]` reads as before, and that one too when `CNT` is at most 4 (no byte is completed). `ACC`, `CNT`,
`POS`, `LEN` are the registers the rules R70 and R71 write. -/
def Obligations.BitsChangeOnlyTheDatapath : Prop :=
  ∀ (i : Instr) (s t : State), i = .bit0 ∨ i = .bit1 → exec i s = .next t →
    t.st = s.st ∧ t.errCode = s.errCode ∧ t.errChar = s.errChar ∧ t.errPos = s.errPos ∧
    t.cfg = s.cfg ∧ t.inputs = s.inputs ∧
    (∀ a, a ≠ s.len ∨ s.cnt.toNat ≤ 4 ∨ s.st ≠ .OPEN → t.out.read a = s.out.read a) ∧
    (s.cnt.toNat ≤ 4 ∨ s.st ≠ .OPEN → t.len = s.len)

/-! ## The byte packer -/

/-- 41_byte_packer.md R80: a unit that is not the eighth is shifted in at bit 0 and counted; the eighth completes a byte,
which is written at `LEN`. Nothing else changes. With `ACC < 2^CNT` the 8-bit shift discards no 1, and the new `ACC` is
again below `2^CNT`. -/
def Obligations.PushUnitShiftsAndWritesTheEighth : Prop :=
  ∀ (u : LineUnit) (s : State),
    (s.cnt.toNat < 7 → ∃ acc cnt, pushUnit u s = { s with acc := acc, cnt := cnt } ∧
      cnt.toNat = s.cnt.toNat + 1 ∧
      (s.acc.toNat < 2 ^ s.cnt.toNat → acc.toNat = 2 * s.acc.toNat + u.toNat ∧ acc.toNat < 2 ^ cnt.toNat) ∧
      acc = (s.acc <<< 1) ||| (if u then 1#8 else 0#8)) ∧
    (s.cnt.toNat = 7 → ∃ v, pushUnit u s =
        { s with out := s.out.write s.len v, len := s.len + 1, acc := 0#8, cnt := 0#3 } ∧
      (s.acc.toNat < 2 ^ s.cnt.toNat → v.toNat = 2 * s.acc.toNat + u.toNat) ∧
      v = (s.acc <<< 1) ||| (if u then 1#8 else 0#8))

/-- 41_byte_packer.md R84: END in OPEN pushes `(8 - CNT) mod 8` zero units and sets `ST` to DONE, which comes to the closed
form (an inference that R84 marks as its own); in a state of R20 `CNT` and `ACC` are then 0 and `LEN = ceil(3*POS/8)`; in
DONE and FAILED nothing changes. -/
def Obligations.EndPadsAndProducesTheBuffer : Prop :=
  (∀ w : CmdWord, w &&& 0x300#10 = 0x100#10 → decode w = .endFrame) ∧
  ∀ s : State,
    (s.st = .OPEN → ∃ t, exec .endFrame s = .next t ∧
      t = { pushUnits (List.replicate ((8 - s.cnt.toNat) % 8) false) s with st := .DONE } ∧
      t = endClosed s ∧ t.st = .DONE ∧ (StateInv s → t.cnt = 0#3 ∧ t.acc = 0#8 ∧ t.len = (3 * s.pos + 7) / 8)) ∧
    (s.st = .DONE ∨ s.st = .FAILED → exec .endFrame s = .next s)

/-- The frame of END: `POS`, the error registers, the parameters and the inputs to come are unchanged; every cell but
`OUT[LEN]` reads as before, and that one too when no unit is pending. `ST`, `ACC`, `CNT`, `LEN` are the registers the
rule R84 writes. -/
def Obligations.EndChangesOnlyTheLastByte : Prop :=
  ∀ s t : State, exec .endFrame s = .next t →
    t.pos = s.pos ∧ t.errCode = s.errCode ∧ t.errChar = s.errChar ∧ t.errPos = s.errPos ∧
    t.cfg = s.cfg ∧ t.inputs = s.inputs ∧
    (∀ a, a ≠ s.len ∨ s.cnt.toNat = 0 ∨ s.st ≠ .OPEN → t.out.read a = s.out.read a) ∧
    (s.cnt.toNat = 0 ∨ s.st ≠ .OPEN → t.len = s.len)

/-- 41_byte_packer.md R81: the number of filler units by the number `L = POS` of logical bits; it is 0 exactly when `L` is
a multiple of 8 and else 1 to 7; and the last byte is `ACC` shifted left by it. -/
def Obligations.FillerCountFollowsTheLength : Prop :=
  ∀ s : State, StateInv s → s.st = .OPEN →
    fillerCount s = (8 - 3 * s.pos % 8) % 8 ∧ s.cnt.toNat = 3 * s.pos % 8 ∧
    (fillerCount s = 0 ↔ s.pos % 8 = 0) ∧ fillerCount s ≤ 7 ∧
    ∃ t, exec .endFrame s = .next t ∧
      (fillerCount s = 0 → t.out = s.out ∧ t.len = s.len) ∧
      (fillerCount s ≠ 0 → t.out = s.out.write s.len (s.acc <<< fillerCount s) ∧ t.len = s.len + 1)

/-! ## Frame control -/

/-- 42_frame_control.md R90: START answers a next state in every state; all nine items are at their reset values; the
parameters and the inputs to come are unchanged; from a fresh frame it changes nothing; reset has exactly its effect. -/
def Obligations.StartOpensAFreshFrame : Prop :=
  (∀ w : CmdWord, w &&& 0x300#10 = 0x200#10 → decode w = .start) ∧
  ∀ s : State,
    (∃ t, exec .start s = .next t ∧ t.st = .OPEN ∧ t.acc = 0#8 ∧ t.cnt = 0#3 ∧ t.pos = 0 ∧ t.len = 0 ∧ t.out = [] ∧
      t.errCode = 0#3 ∧ t.errChar = 0#8 ∧ t.errPos = 0 ∧ t.cfg = s.cfg ∧ t.inputs = s.inputs) ∧
    (atResetValues s → exec .start s = .next s) ∧ perform .reset s = exec .start s

/-- 10_state.md R23, 70_reset_and_hazards.md R170: the state after reset; reset asserted later has the effect of START; and
from a fresh frame a START first changes nothing, and any command may come first (a valid character where `LMAX` leaves
room for one, R178). -/
def Obligations.ResetPutsEveryItemAtItsValue : Prop :=
  (State.reset.st = .OPEN ∧ State.reset.acc = 0#8 ∧ State.reset.cnt = 0#3 ∧ State.reset.pos = 0 ∧
    State.reset.len = 0 ∧ (∀ i, State.reset.out.read i = none) ∧ State.reset.errCode = 0#3 ∧
    State.reset.errChar = 0#8 ∧ State.reset.errPos = 0) ∧
  (∀ s : State, perform .reset s = exec .start s ∧ ∃ t, perform .reset s = .next t ∧ atResetValues t) ∧
  ∀ s : State, atResetValues s →
    exec .start s = .next s ∧ answersNext (exec .endFrame s) ∧ (∀ c, answersNext (exec (.badChar c) s)) ∧
    (s.cfg.lmax ≠ some 0 → ∀ c : CharCode, answersNext (exec (Command.char c).toInstr s))

/-- 42_frame_control.md R91, R92: in DONE and in FAILED, CHAR with any code and END change no item; only START or reset
leaves the state. -/
def Obligations.TerminalStatesAbsorbCharAndEnd : Prop :=
  ∀ s : State, terminal s →
    (∀ c : CharCode, exec (Command.char c).toInstr s = .next s) ∧
    exec Command.endFrame.toInstr s = .next s ∧
    (∀ x t, perform x s = .next t → t.st ≠ s.st → opensFrame x = true) ∧
    (∀ x t, perform x s = .next t → opensFrame x = false → t = s)

/-- 42_frame_control.md R93, the transition table (the spec derives it): the frame state after an instruction, how `POS`
moves, and exactly which instructions are refused; none faults. -/
def Obligations.TransitionTableIsComplete : Prop :=
  ∀ (i : Instr) (s : State),
    (∀ t, exec i s = .next t →
      t.st = (match s.st, i with
        | _, .start => .OPEN
        | .OPEN, .badChar _ => .FAILED
        | .OPEN, .endFrame => .DONE
        | st, _ => st) ∧
      t.pos = (match s.st, i with
        | _, .start => 0
        | .OPEN, .bit0 => s.pos + 1
        | .OPEN, .bit1 => s.pos + 1
        | _, _ => s.pos)) ∧
    (∀ r, exec i s = .refused r ↔
      (∃ ch, i = .reserved ch ∧ r = .reservedCommand ch) ∨
      ((i = .bit0 ∨ i = .bit1) ∧ s.st = .OPEN ∧ s.cfg.lmax = some s.pos ∧ r = .capacityExceeded)) ∧
    (∀ f, exec i s ≠ .fault f)

/-- 60_exceptions.md R152: a step fails a frame exactly when it is BADCHAR in OPEN, and then it records the character and
its index; no other step changes an error register but START and reset, which clear them. The source's example `"10a1"`,
and the empty string, which never raises the error. -/
def Obligations.OnlyBadCharInOpenRaisesTheError : Prop :=
  (∀ (x : Input) (s t : State), perform x s = .next t →
    ((s.st ≠ .FAILED ∧ t.st = .FAILED) ↔ (s.st = .OPEN ∧ ∃ w c, x = .command w ∧ decode w = .badChar c)) ∧
    (∀ w c, x = .command w → decode w = .badChar c → s.st = .OPEN →
      t.errCode = 1#3 ∧ t.errChar = c ∧ t.errPos = s.pos) ∧
    (¬ (t.errCode = s.errCode ∧ t.errChar = s.errChar ∧ t.errPos = s.errPos) →
      opensFrame x = true ∨ (s.st = .OPEN ∧ t.st = .FAILED))) ∧
  encodeStr [0x31#8, 0x30#8, 0x61#8, 0x31#8] = .invalidInputError 0x61#8 2 ∧
  encodeStr [] = .packedBuffer []

/-- 70_reset_and_hazards.md R178: with a finite `LMAX`, at `POS = LMAX` in OPEN a valid character is refused; BADCHAR and
END still answer a next state there; with `LMAX` unbounded no valid character is ever refused. -/
def Obligations.CapacityRefusesOnlyValidCharacters : Prop :=
  ∀ s : State, s.st = .OPEN →
    (s.cfg.lmax = some s.pos →
      exec .bit0 s = .refused .capacityExceeded ∧ exec .bit1 s = .refused .capacityExceeded ∧
      (∀ c, ∃ t, exec (.badChar c) s = .next t ∧ t.st = .FAILED ∧ t.errPos = s.pos) ∧
      ∃ t, exec .endFrame s = .next t ∧ t.st = .DONE) ∧
    (s.cfg.lmax = none → answersNext (exec .bit0 s) ∧ answersNext (exec .bit1 s))

/-! ## The step -/

/-- A step performs the next input: it decodes and executes the command word, with that input taken off the list; reset
puts a fresh frame; with nothing sent the state is held (60_exceptions.md R165). `withFetchWord` puts a word there. -/
def Obligations.StepPerformsTheNextInput : Prop :=
  (∀ (s : State) (w : CmdWord) (rest : List Input), s.inputs = .command w :: rest →
    step s = exec (decode w) { s with inputs := rest }) ∧
  (∀ (s : State) (rest : List Input), s.inputs = .reset :: rest →
    step s = .next (freshFrame { s with inputs := rest })) ∧
  (∀ s : State, s.inputs = [] → step s = .next s) ∧
  (∀ (s : State) (nbits w : Nat) (i : Instr), decodeTableWord nbits w = some i →
    step (s.withFetchWord nbits w) = exec i s)

/-- No instruction changes the parameters or the inputs to come, and a step takes exactly one input (00_scope.md R5,
10_state.md R21, 70_reset_and_hazards.md R177). -/
def Obligations.StepsTakeOneInputAndKeepParameters : Prop :=
  (∀ (i : Instr) (s t : State), exec i s = .next t → t.cfg = s.cfg ∧ t.inputs = s.inputs) ∧
  (∀ s t : State, step s = .next t → t.cfg = s.cfg ∧ t.inputs = s.inputs.drop 1)

/-! ## Memory and the result view -/

/-- 20_memory.md R36: from a state of R20 a step leaves `OUT` alone, or writes one byte at index `LEN`, in a cell that held
no value, and counts it, or empties `OUT`; it empties it only in the failure entry, START or reset. -/
def Obligations.WritesGoToTheNextCellOncePerStep : Prop :=
  ∀ (x : Input) (s t : State), StateInv s → perform x s = .next t →
    (t.out = s.out ∧ t.len = s.len) ∨
    (s.st = .OPEN ∧ s.out.read s.len = none ∧ ∃ v, t.out = s.out.write s.len v ∧ t.len = s.len + 1) ∨
    (t.out = [] ∧ t.len = 0 ∧ (opensFrame x = true ∨ (s.st = .OPEN ∧ t.st = .FAILED)))

/-- 20_memory.md R37: in DONE a read below `LEN` gives the byte of the cell; every other read is refused; and no step but
START or reset changes what a read in DONE gives. -/
def Obligations.MemReadGivesProducedBytesOnly : Prop :=
  ∀ s : State, StateInv s →
    (∀ i, s.st = .DONE → i < s.len → ∃ v, s.out.read i = some v ∧ memRead i s = .value v) ∧
    (∀ i, s.st ≠ .DONE ∨ s.len ≤ i → memRead i s = .refused .readUnavailable) ∧
    (∀ x t i, s.st = .DONE → perform x s = .next t → opensFrame x = false → memRead i t = memRead i s)

/-- 42_frame_control.md R95: Busy in OPEN, where nothing but `ST` is readable; Ok in DONE, with the `LEN` bytes of `OUT` in
order, each readable; Err in FAILED, with the error registers readable and every MemRead refused. -/
def Obligations.ViewFollowsTheFrameState : Prop :=
  ∀ s : State, StateInv s →
    (s.st = .OPEN → view s = .busy ∧
      ∀ it, it ≠ .ST → consumerRead it s = .refused .readUnavailable) ∧
    (s.st = .DONE → ∃ buffer, view s = .ok buffer ∧ buffer.length = s.len ∧
      consumerRead .LEN s = .value (.count buffer.length) ∧
      (∀ i (h : i < buffer.length), consumerRead (.OUT i) s = .value (.byte buffer[i]) ∧
        s.out.read i = some buffer[i])) ∧
    (s.st = .FAILED → view s = .err s.errChar s.errPos ∧
      consumerRead .ERRCODE s = .value (.cause 1#3) ∧ consumerRead .ERRCHAR s = .value (.byte s.errChar) ∧
      consumerRead .ERRPOS s = .value (.count s.errPos) ∧
      ∀ i, memRead i s = .refused .readUnavailable)

/-- 10_state.md R22, the columns of the readers: the producer reads `ST` and nothing else; the consumer never reads
`POS`, `ACC`, `CNT`, and the other items exactly in the states the table names. -/
def Obligations.ReadAccessFollowsTheTable : Prop :=
  ∀ s : State, StateInv s →
    (∀ it, (∃ v, readItem .producer it s = .value v) ↔ it = .ST) ∧
    (∀ it, (∃ v, readItem .consumer it s = .value v) ↔
      (it = .ST ∨ (it = .LEN ∧ s.st = .DONE) ∨ (∃ i, it = .OUT i ∧ s.st = .DONE ∧ i < s.len) ∨
        ((it = .ERRCODE ∨ it = .ERRCHAR ∨ it = .ERRPOS) ∧ s.st = .FAILED)))

/-- Before END nothing of the characters can be learned (42_frame_control.md R95, "Busy"; 10_state.md R22): two strings
of valid characters, whatever they are and however long, leave states in which every read by either agent gives the same
answer. -/
def Obligations.OpenFrameRevealsNothing : Prop :=
  ∀ (c : Config) (xs ys : List CharCode), xs.all validChar = true → ys.all validChar = true →
    fitsCapacity c xs → fitsCapacity c ys →
    ∃ s t, performAll (xs.map charInput) (resetWith c []) = .next s ∧
      performAll (ys.map charInput) (resetWith c []) = .next t ∧
      view s = view t ∧ ∀ (a : Agent) (it : Item), readItem a it s = readItem a it t

/-! ## Invariants -/

/-- The state after reset meets the invariants of 10_state.md R20 for no accepted bits, whatever the parameters and the
inputs to come. -/
def Obligations.ResetMeetsTheInvariants : Prop :=
  ∀ (c : Config) (xs : List Input), StateInv (resetWith c xs) ∧ StreamInv [] (resetWith c xs)

/-- 10_state.md R20 I-1, I-2, I-4 to I-7 (the spec derives them): every step keeps them, from every state that meets
them. -/
def Obligations.EveryStepKeepsTheStateInvariant : Prop :=
  ∀ s t : State, StateInv s → step s = .next t → StateInv t

/-- 10_state.md R20 I-3 and I-4 (the spec derives them): every input keeps, for the bits accepted so far in the frame,
that the units written and pending are their symbols in input order, and that a produced buffer is their encoding. -/
def Obligations.EveryStepKeepsTheStreamInvariant : Prop :=
  ∀ (bits : List LogicalBit) (x : Input) (s t : State), StreamInv bits s → perform x s = .next t →
    StreamInv (acceptedAfter x s bits) t

/-- Every step keeps the memory's canonical form, from every state that has it. -/
def Obligations.EveryStepKeepsMemoryCanonical : Prop :=
  ∀ s t : State, s.out.wf → step s = .next t → t.out.wf

/-- 00_scope.md R7: with a finite `LMAX`, `POS`, `LEN` and `ERRPOS` fit the width `PW = ceil(log2(LMAX+1))`, which is the
least width that holds `LMAX`; and no frame holds more than `ceil(3*LMAX/8)` bytes (20_memory.md R40). -/
def Obligations.PositionRegistersFitTheirWidth : Prop :=
  ∀ (s : State) (l k : Nat), StateInv s → s.cfg.lmax = some l → s.cfg.pw = some k →
    s.pos < 2 ^ k ∧ s.len < 2 ^ k ∧ s.errPos < 2 ^ k ∧ l < 2 ^ k ∧ (∀ j, l < 2 ^ j → k ≤ j) ∧
    s.len ≤ (3 * l + 7) / 8

/-! ## Frames against the reference function -/

/-- 42_frame_control.md R96 (the spec derives it): from any state, START and the frame of any characters that fit the
capacity end in the view of `encode_str` of the characters; the same from any state at its reset values without START. A
string of valid characters gives `LEN = ceil(3n/8)`. -/
def Obligations.FrameComputesEncodeStr : Prop :=
  ∀ (chars : List CharCode) (s : State), fitsCapacity s.cfg chars →
    (∃ t, runSteps (chars.length + 2) (withInputs s (startInput :: frameInputs chars)) = .next t ∧
      view t = (encodeStr chars).toView ∧ (chars.all validChar = true → t.len = (3 * chars.length + 7) / 8)) ∧
    (atResetValues s →
      ∃ t, runSteps (chars.length + 1) (withInputs s (frameInputs chars)) = .next t ∧
        view t = (encodeStr chars).toView ∧ (chars.all validChar = true → t.len = (3 * chars.length + 7) / 8))

/-- 42_frame_control.md R96, its last sentence (the spec derives it): at every point before END the view is Busy while no
invalid character has come, and after one it is already the final Err. -/
def Obligations.ViewBeforeEndIsBusyOrFinal : Prop :=
  ∀ (chars : List CharCode) (k : Nat) (s : State), fitsCapacity s.cfg chars → k ≤ chars.length → atResetValues s →
    ∃ t, runSteps k (withInputs s (frameInputs chars)) = .next t ∧
      ((chars.take k).all validChar = true → view t = .busy) ∧
      ((chars.take k).all validChar = false → view t = (encodeStr chars).toView ∧ t.st = .FAILED)

/-- 41_byte_packer.md R88 (the spec derives it): the frame of any logical bits that fit the capacity, from a state at its
reset values, ends in the state the rule describes, every cell of `OUT` the byte of `encode(bits)` at its index. -/
def Obligations.StepsAgreeWithEncode : Prop :=
  ∀ (bits : List LogicalBit) (s : State), atResetValues s → (∀ l, s.cfg.lmax = some l → bits.length ≤ l) →
    ∃ t, runSteps (bits.length + 1) (withInputs s (frameInputs (bits.map charOfBit))) = .next t ∧
      t.st = .DONE ∧ t.len = (3 * bits.length + 7) / 8 ∧ bufferOf t = encodeBits bits ∧
      (∀ i, t.out.read i = (encodeBits bits)[i]?) ∧ t.pos = bits.length ∧ t.cnt = 0#3 ∧ t.acc = 0#8 ∧
      t.errCode = 0#3 ∧ t.inputs = []

/-- 20_memory.md R38, 10_state.md R21: after START nothing of an earlier frame is left: two states with the same
parameters, given START and then the same inputs, do the same, step for step. -/
def Obligations.FramesDependOnTheirCommandsOnly : Prop :=
  ∀ (s t : State) (k : Nat) (xs : List Input), s.cfg = t.cfg →
    runSteps (k + 1) (withInputs s (startInput :: xs)) =
      runSteps (k + 1) (withInputs t (startInput :: xs)) ∧
    runSteps (k + 1) (withInputs s (.reset :: xs)) =
      runSteps (k + 1) (withInputs t (startInput :: xs))

/-- A producer that keeps the duties of 70_reset_and_hazards.md R175 and R178 and of 30_encoding.md R58 is never refused:
its whole sequence of inputs has a meaning from reset. -/
def Obligations.DisciplinedProducerIsNeverRefused : Prop :=
  ∀ (c : Config) (xs : List Input), disciplined c (.opened 0) xs = true →
    answersNext (performAll xs (resetWith c []))

/-! ## The reference function -/

/-- 41_byte_packer.md R86, the length law: `ceil(3L/8)` bytes, `8 * ceil(3L/8)` units. -/
def Obligations.EncodeGivesCeilThreeEighthsBytes : Prop :=
  ∀ bits : List LogicalBit,
    (encodeBits bits).length = (3 * bits.length + 7) / 8 ∧
    (symbolStream bits).length = frameUnits bits.length

/-- 41_byte_packer.md R86, symbol positions: units `3k, 3k+1, 3k+2` are the symbol of bit `k`; units from `3L` on are 0;
and no other pattern than the two symbols stands in a symbol position (30_encoding.md R54). -/
def Obligations.SymbolsStandInInputOrder : Prop :=
  ∀ bits : List LogicalBit,
    (∀ k (h : k < bits.length), ((symbolStream bits).drop (3 * k)).take 3 = sym bits[k]) ∧
    (∀ j, 3 * bits.length ≤ j → (symbolStream bits).getD j false = false) ∧
    (∀ b, sym b = [b, b, !b])

/-- 20_memory.md R33, R31: the first of 8 units is bit 7 and so on down to bit 0, and byte `i` of a PackedBuffer holds
units `8i` to `8i+7` of the padded stream. -/
def Obligations.BytesHoldUnitsMostSignificantFirst : Prop :=
  (∀ w : List LineUnit, w.length = 8 → unitsOfByte (byteOf w) = w ∧
    (byteOf w).toNat = unitAt w 0 * 128 + unitAt w 1 * 64 + unitAt w 2 * 32 + unitAt w 3 * 16 + unitAt w 4 * 8
      + unitAt w 5 * 4 + unitAt w 6 * 2 + unitAt w 7) ∧
  (∀ (bits : List LogicalBit) (i : Nat) (h : i < (encodeBits bits).length),
    unitsOfByte (encodeBits bits)[i] = ((symbolStream bits).drop (8 * i)).take 8)

/-- 41_byte_packer.md R86, the prefix law (the spec derives it): when more bits follow, the full bytes stay. -/
def Obligations.MoreBitsKeepTheFullBytes : Prop :=
  ∀ bits more : List LogicalBit,
    (encodeBits (bits ++ more)).take (3 * bits.length / 8) = (encodeBits bits).take (3 * bits.length / 8)

/-- 41_byte_packer.md R87, S2: decoding what `encode` gives recovers the bits, for every length; so `encode` is
injective. The way the padding is recognised is the spec's reading (D27). -/
def Obligations.DecodeRecoversTheBits : Prop :=
  (∀ bits : List LogicalBit, decodeBuffer (encodeBits bits) = .value bits) ∧
  (∀ a b : List LogicalBit, encodeBits a = encodeBits b → a = b)

/-- 41_byte_packer.md R85, 60_exceptions.md R153: `encode_str` reports an error exactly for the invalid character of least
index; without one it gives the encoding of the characters' bits. -/
def Obligations.EncodeStrReportsTheFirstInvalid : Prop :=
  ∀ s : List CharCode,
    (∀ c i, encodeStr s = .invalidInputError c i ↔
      (s[i]? = some c ∧ validChar c = false ∧ ∀ j d, j < i → s[j]? = some d → validChar d = true)) ∧
    (s.all validChar = true → encodeStr s = .packedBuffer (encodeBits (s.map bitOfChar)) ∧
      (s.map bitOfChar).map charOfBit = s)

/-! ## The clock divisor calculator (reference arithmetic) -/

/-- 43_clock_divisor_reference.md R101, R105: a returned pair has `N` a candidate, `M` in the range, and its rate
`F / (N * M)` within the relative tolerance of the target rate, in exact rational arithmetic. -/
def Obligations.ReturnedPairReproducesTheRate : Prop :=
  ∀ (q : DivisorQuery) (n m : Int), divisorsFor q = .next (n, m) →
    n ∈ q.candidates ∧ q.mLo ≤ m ∧ m ≤ q.mHi ∧
    |(q.referenceFrequency : ℚ) / (n * m) - q.targetRate| ≤ (q.tolNum : ℚ) / q.tolDen * q.targetRate

/-- 43_clock_divisor_reference.md R106, with R102's domain and the tests of R103 to R105 written out: the pair is the
least candidate whose rounded factor is in the range and within the tolerance, with that factor;
UnrepresentableRateError exactly when the call is in the domain and no candidate passes; refused exactly outside the
domain. That a `TOL_den` below 1 is outside it is the model's choice (log entry 13). -/
def Obligations.FirstFittingCandidateIsReturned : Prop :=
  ∀ q : DivisorQuery,
    let domain : Prop := 1 ≤ q.targetRate ∧ 1 ≤ q.referenceFrequency ∧ (∀ n ∈ q.candidates, ∃ e : Nat, n = 2 ^ e) ∧
      1 ≤ q.mLo ∧ q.mLo ≤ q.mHi ∧ 0 ≤ q.tolNum ∧ 1 ≤ q.tolDen
    let factor : Int → Int := fun n => (2 * q.referenceFrequency + n * q.targetRate) / (2 * n * q.targetRate)
    let fits : Int → Prop := fun n => q.mLo ≤ factor n ∧ factor n ≤ q.mHi ∧
      |q.referenceFrequency - n * factor n * q.targetRate| * q.tolDen ≤ q.tolNum * (n * factor n * q.targetRate)
    (∀ n m, divisorsFor q = .next (n, m) ↔
      (domain ∧ n ∈ q.candidates ∧ fits n ∧ m = factor n ∧ ∀ k ∈ q.candidates, k < n → ¬ fits k)) ∧
    (∀ f, divisorsFor q = .fault f ↔ (f = .unrepresentableRate ∧ domain ∧ ∀ k ∈ q.candidates, ¬ fits k)) ∧
    (∀ r, divisorsFor q = .refused r ↔ (r = .divisorsOutsideDomain ∧ ¬ domain))

/-- 43_clock_divisor_reference.md R104: the second factor is the integer nearest to `F/(N*T)`, the larger of two equally
near. -/
def Obligations.SecondFactorIsRoundedHalfUp : Prop :=
  ∀ (q : DivisorQuery) (n k : Int), 1 ≤ q.targetRate → 1 ≤ q.referenceFrequency → 1 ≤ n →
    |(q.referenceFrequency : ℚ) / (n * q.targetRate) - roundedM q n| ≤
      |(q.referenceFrequency : ℚ) / (n * q.targetRate) - k| ∧
    (|(q.referenceFrequency : ℚ) / (n * q.targetRate) - roundedM q n| =
      |(q.referenceFrequency : ℚ) / (n * q.targetRate) - k| → k ≤ roundedM q n)

/-- 43_clock_divisor_reference.md R101, R105 with the default tolerance 0: the search answers a pair exactly when some
candidate and some factor in the range reproduce the rate exactly. -/
def Obligations.ExactRateIsFoundWhenOneExists : Prop :=
  ∀ q : DivisorQuery, q.inDomain = true → q.tolNum = 0 →
    ((∃ p, divisorsFor q = .next p) ↔
      ∃ n ∈ q.candidates, ∃ m, q.mLo ≤ m ∧ m ≤ q.mHi ∧ q.referenceFrequency = n * m * q.targetRate)

/-- 43_clock_divisor_reference.md R109: in the reference case, with any set of powers of two that has 32, the pair is
(32, 150). -/
def Obligations.ReferenceCaseGives32And150 : Prop :=
  ∀ candidates : List Int, 32 ∈ candidates → candidates.all isPowerOfTwo = true →
    divisorsFor { targetRate := 2500, referenceFrequency := 12000000, candidates := candidates, mLo := 1, mHi := 255 }
      = .next (32, 150)

/-! ## The assembly syntax -/

/-- 30_encoding.md R62: the words of `ENCODE "s"` decode to START, the instruction of each character in order, END: two
more than `s` has characters. -/
def Obligations.EncodeLineExpandsInOrder : Prop :=
  ∀ s : List CharCode,
    (assemble [.encode s]).map decode =
      .start :: (s.map fun c => if c = 0x30#8 then .bit0 else if c = 0x31#8 then .bit1 else .badChar c) ++ [.endFrame] ∧
    (assemble [.encode s]).length = s.length + 2

/-! ## The surrounding system at its interface -/

/-- 44_surrounding_system.md R120, R122, R123: `apply` issues mode, then N, then M, one at a time; when all succeed the
adapter runs at the pair, whatever was there before; the first that fails ends it with DeviceConfigError, nothing after it
is issued, and the clock is unconfirmed. -/
def Obligations.ApplyIssuesModeThenNThenM : Prop :=
  ∀ (pair : Int × Int) (rs rest : List Reply), (∀ r ∈ rs, r = .success) →
    (rs.length = 3 →
      applyPair pair (rs ++ rest) =
        ⟨[.configure Config.modeEnableRequest, .configure (Config.setNRequest pair.1),
          .configure (Config.setMRequest pair.2)], .success, rest⟩ ∧
      clockAfter pair (applyPair pair (rs ++ rest)).callEnd = .configured pair.1 pair.2) ∧
    (rs.length < 3 →
      applyPair pair (rs ++ .failure :: rest) =
        ⟨[.configure Config.modeEnableRequest, .configure (Config.setNRequest pair.1),
          .configure (Config.setMRequest pair.2)].take (rs.length + 1), .fault .deviceConfig, rest⟩ ∧
      clockAfter pair (applyPair pair (rs ++ .failure :: rest)).callEnd = .unconfirmed)

/-- 44_surrounding_system.md R125, R127: the chunks put together are the buffer; there are `ceil(B/m)`; chunk `k` begins
at byte `k*m` and holds the bytes from there, `m` of them but in the last chunk. -/
def Obligations.ChunksReassembleTheBuffer : Prop :=
  ∀ (m : Nat) (buffer : List Byte), 1 ≤ m →
    (chunksOf m buffer).flatMap Chunk.payload = buffer ∧
    (chunksOf m buffer).length = (buffer.length + m - 1) / m ∧
    (∀ k (h : k < (chunksOf m buffer).length),
      (chunksOf m buffer)[k] = ⟨k * m, (buffer.drop (k * m)).take m⟩ ∧
      (chunksOf m buffer)[k].payload.length = min m (buffer.length - k * m))

/-- 44_surrounding_system.md R126, R128, R129: `transmit` issues the chunks in order, one at a time; when all succeed it
returns with every chunk issued; when chunk `k` is the first to fail it stops there with TransferError at byte offset
`k*m`, the chunks before it stay sent, and none is repeated; an empty buffer issues none and succeeds; chunk size 0 is
refused. -/
def Obligations.TransmitStopsAtTheFirstFailedChunk : Prop :=
  ∀ (m : Nat) (buffer : List Byte) (rs rest : List Reply),
    (1 ≤ m → rs.length = (chunksOf m buffer).length → (∀ r ∈ rs, r = .success) →
      transmit buffer m (rs ++ rest) = ⟨(chunksOf m buffer).map .data, .success, rest⟩) ∧
    (1 ≤ m → rs.length < (chunksOf m buffer).length → (∀ r ∈ rs, r = .success) →
      transmit buffer m (rs ++ .failure :: rest) =
        ⟨((chunksOf m buffer).take (rs.length + 1)).map .data, .fault (.transfer (rs.length * m)), rest⟩) ∧
    (1 ≤ m → transmit [] m rs = ⟨[], .success, rs⟩) ∧
    transmit buffer 0 rs = ⟨[], .refused .zeroChunkSize, rs⟩

/-- 44_surrounding_system.md R139 step 1, 95_test_vectors.md S8: with an invalid character the invocation ends with that
error, and no device interaction has happened, not even the lookup; the adapter's clock is as before. -/
def Obligations.InvalidInputTouchesNoDevice : Prop :=
  ∀ (job : Job) (env : Environment) (c : CharCode) (i : Nat), fitsCapacity job.cfg job.chars →
    encodeStr job.chars = .invalidInputError c i →
    invoke job env =
      { events := [], phases := [.Idle], clock := env.clock, handleHeld := false,
        invEnd := .error (.invalidInput c i) }

/-- 44_surrounding_system.md R120, R123, R134, R139; 70_reset_and_hazards.md R179: before any data request the adapter was
looked for and found, a device with its identifier pair attached, and the three configuration requests were issued, mode,
then N, then M, of a pair the search returned, and all succeeded. That the handle is acquired right after the lookup is the
model's choice (log entry 19), and so are what the pair is and that the devices attached are an input (log entry 30). -/
def Obligations.NoDataBeforeConfiguration : Prop :=
  ∀ (job : Job) (env : Environment) (before after : List DeviceEvent) (c : Chunk),
    (invoke job env).events = before ++ .request (.data c) :: after →
    job.device ∈ env.attached ∧ ∃ n m, divisorsFor job.query = .next (n, m) ∧
      [.lookup job.device, .acquire, .request (.configure Config.modeEnableRequest),
        .request (.configure (Config.setNRequest n)), .request (.configure (Config.setMRequest m))] <+: before ∧
      env.replies.take 3 = [.success, .success, .success] ∧ (invoke job env).clock = .configured n m

/-- 44_surrounding_system.md R132, R135, R137: on every path that ends, success or error, the handle is not held; if it was
acquired its release is the last device event, and the report follows it; the outcome is reported once, at the very end.
The rules say that the handle is released on every path and before the report; that its release is the last device event
is the model's choice (log entry 19). -/
def Obligations.HandleIsReleasedOnEveryExit : Prop :=
  ∀ (job : Job) (env : Environment),
    ((∃ b, (invoke job env).invEnd = .success b) ∨ (∃ e, (invoke job env).invEnd = .error e)) →
    (invoke job env).handleHeld = false ∧
    (.acquire ∈ (invoke job env).events → (invoke job env).events.getLast? = some .release ∧
      ∃ before r, (invoke job env).process = before ++ [.device .release, .reported r]) ∧
    (∃ before r, (invoke job env).process = before ++ [.reported r] ∧ reportOf (invoke job env).invEnd = some r ∧
      ∀ r', .reported r' ∉ before)

/-- 44_surrounding_system.md R131, R127, R139: an invocation that succeeds has encoded its characters, configured the
adapter with a pair that fits, and issued exactly the bytes of the encoding, in order, none dropped or repeated. -/
def Obligations.SuccessSendsExactlyTheEncoding : Prop :=
  ∀ (job : Job) (env : Environment) (b : List Byte), (invoke job env).invEnd = .success b →
    encodeStr job.chars = .packedBuffer b ∧
    (∃ n m, divisorsFor job.query = .next (n, m) ∧ (invoke job env).clock = .configured n m) ∧
    ((invoke job env).events.flatMap fun e =>
      match e with
      | .request (.data c) => c.payload
      | _ => []) = b

/-- 44_surrounding_system.md R130: a session begins Idle, each phase follows the one before by one of the rule's
transitions, and a success ends in Done. -/
def Obligations.PhasesFollowTheSessionMachine : Prop :=
  ∀ (job : Job) (env : Environment),
    (invoke job env).phases.head? = some .Idle ∧
    (invoke job env).phases.IsChain (fun p p' => ∃ e, Phase.next p e = some p') ∧
    (∀ b, (invoke job env).invEnd = .success b → (invoke job env).phases.getLast? = some .Done)

/-- 44_surrounding_system.md R122, R132, R136, 10_state.md R21: an invocation does not depend on the clock it finds, and
no state crosses from one invocation to the next but that clock. In a sequence of invocations on one adapter each has the
events, phases, handle and end it has alone; it finds the clock the one before it left (the first, the one given); and one
takes place exactly when every one before it has ended, so all do when all end. -/
def Obligations.InvocationsShareOnlyTheClock : Prop :=
  (∀ (job : Job) (env : Environment) (c : AdapterClock),
    (invoke job { env with clock := c }).events = (invoke job env).events ∧
    (invoke job { env with clock := c }).phases = (invoke job env).phases ∧
    (invoke job { env with clock := c }).handleHeld = (invoke job env).handleHeld ∧
    (invoke job { env with clock := c }).invEnd = (invoke job env).invEnd) ∧
  ∀ (calls : List (Job × Environment)) (c : AdapterClock),
    (∀ (k : Nat) (p : Job × Environment) (v : Invocation), calls[k]? = some p → (invokeAll calls c)[k]? = some v →
      v.events = (invoke p.1 p.2).events ∧ v.phases = (invoke p.1 p.2).phases ∧
      v.handleHeld = (invoke p.1 p.2).handleHeld ∧ v.invEnd = (invoke p.1 p.2).invEnd ∧
      ∃ found, (c :: (invokeAll calls c).map Invocation.clock)[k]? = some found ∧
        v = invoke p.1 { p.2 with clock := found }) ∧
    (invokeAll calls c).length ≤ calls.length ∧
    (∀ k, k < calls.length → (k < (invokeAll calls c).length ↔
      ∀ (j : Nat) (p : Job × Environment), j < k → calls[j]? = some p →
        (∃ b, (invoke p.1 p.2).invEnd = .success b) ∨ (∃ e, (invoke p.1 p.2).invEnd = .error e))) ∧
    ((∀ p ∈ calls, (∃ b, (invoke p.1 p.2).invEnd = .success b) ∨ (∃ e, (invoke p.1 p.2).invEnd = .error e)) →
      (invokeAll calls c).length = calls.length)

/-- 60_exceptions.md R150, 44_surrounding_system.md R134, R137, R139: an invocation that ends in an error ends in the one
whose cause occurred, with the context that kind records: the offending character and its index; the device looked for,
which is not attached, with nothing done but the lookup; an unrepresentable rate; a failed configuration, with no data
sent; or the byte offset of the data request that failed. A failed request is the last one issued, its reply is a failure
and every reply before it a success. Only the first kind has an invalid string. That the missing device is the identifier
pair looked for is the model's choice (log entry 30); so is it that the handle is acquired right after the lookup, that
only the release follows the failed request, and that nothing is acquired when the lookup fails (log entry 19). -/
def Obligations.EveryErrorHasItsCauseAndContext : Prop :=
  ∀ (job : Job) (env : Environment) (e : SystemError), (invoke job env).invEnd = .error e →
    (∃ c i, e = .invalidInput c i ∧ encodeStr job.chars = .invalidInputError c i ∧ e.context = .character c i) ∨
    ((∃ b, encodeStr job.chars = .packedBuffer b) ∧
      ((e = .device (.deviceNotFound job.device) ∧ job.device ∉ env.attached ∧
          (invoke job env).events = [.lookup job.device] ∧ e.context = .missingDevice job.device) ∨
        (e = .device .unrepresentableRate ∧ divisorsFor job.query = .fault .unrepresentableRate ∧
          e.context = .nothing) ∨
        (∃ (earlier : List DeviceRequest) (r : ConfigRequest), e = .device .deviceConfig ∧ (∀ c, .request (.data c) ∉ (invoke job env).events) ∧
          (invoke job env).events =
            [.lookup job.device, .acquire] ++ earlier.map .request ++ [.request (.configure r), .release] ∧
          earlier.length < 3 ∧ (∀ a ∈ env.replies.take earlier.length, a = .success) ∧
          env.replies[earlier.length]? = some .failure ∧ e.context = .nothing) ∨
        (∃ (earlier : List DeviceRequest) (c : Chunk), e = .device (.transfer c.offset) ∧
          (invoke job env).events =
            [.lookup job.device, .acquire] ++ earlier.map .request ++ [.request (.data c), .release] ∧
          3 ≤ earlier.length ∧ (∀ a ∈ env.replies.take earlier.length, a = .success) ∧
          env.replies[earlier.length]? = some .failure ∧ e.context = .byteOffset c.offset)))
end

