-- ==== Sys2Proof/Laws/Adapter.lean ====
section
/-! SUPPORT. What issuing requests one at a time can do, said once: all succeed, one is the first to fail, or one is not
answered. -/

namespace Sys2Proof.Machine

/-- As many successes as requests. -/
theorem issueAll_success {qs : List DeviceRequest} {rs : List Reply} (rest : List Reply)
    (hl : rs.length = qs.length) (hr : ∀ r ∈ rs, r = .success) : issueAll qs (rs ++ rest) = ⟨qs, .success, rest⟩ := by
  induction qs generalizing rs with
  | nil => rw [List.length_eq_zero_iff.mp hl]; rfl
  | cons q qs ih =>
    match rs, hl with
    | r :: rs, hl =>
      obtain ⟨rfl, hs⟩ := List.forall_mem_cons.mp hr
      simp only [List.cons_append, issueAll, ih (Nat.succ.inj hl) hs]

/-- Successes, and then a failure: nothing after the failed request is issued. -/
theorem issueAll_failure {qs : List DeviceRequest} {rs : List Reply} (rest : List Reply) (hl : rs.length < qs.length)
    (hr : ∀ r ∈ rs, r = .success) :
    issueAll qs (rs ++ .failure :: rest) = ⟨qs.take (rs.length + 1), .fault qs[rs.length].faultOf, rest⟩ := by
  induction qs generalizing rs with
  | nil => exact absurd hl (Nat.not_lt_zero _)
  | cons q qs ih =>
    match rs, hl with
    | [], _ => simp [issueAll]
    | r :: rs, hl =>
      obtain ⟨rfl, hs⟩ := List.forall_mem_cons.mp hr
      simp [issueAll, ih (Nat.lt_of_succ_lt_succ hl) hs]

/-- Successes, and then no answer. -/
theorem issueAll_hanging {qs : List DeviceRequest} {rs : List Reply} (hl : rs.length < qs.length)
    (hr : ∀ r ∈ rs, r = .success) : issueAll qs rs = ⟨qs.take (rs.length + 1), .hanging, []⟩ := by
  induction qs generalizing rs with
  | nil => exact absurd hl (Nat.not_lt_zero _)
  | cons q qs ih =>
    match rs, hl with
    | [], _ => simp [issueAll]
    | r :: rs, hl =>
      obtain ⟨rfl, hs⟩ := List.forall_mem_cons.mp hr
      simp [issueAll, ih (Nat.lt_of_succ_lt_succ hl) hs]

/-- A call that ends in a fault: the last request issued is the one at fault, answered by a failure after successes. -/
theorem issueAll_fault_cases {qs : List DeviceRequest} {rs : List Reply} {f : Fault}
    (h : (issueAll qs rs).callEnd = .fault f) :
    ∃ earlier q, (issueAll qs rs).issued = earlier ++ [q] ∧ q ∈ qs ∧ f = q.faultOf ∧ earlier.length < qs.length ∧
      (∀ r ∈ rs.take earlier.length, r = .success) ∧ rs[earlier.length]? = some .failure := by
  induction qs generalizing rs with
  | nil => cases h
  | cons q qs ih =>
    match rs with
    | [] => cases h
    | .failure :: rs =>
      cases h
      exact ⟨[], q, rfl, List.mem_cons_self, rfl, Nat.succ_pos _, by simp, rfl⟩
    | .success :: rs =>
      obtain ⟨earlier, p, h1, h2, h3, h4, h5, h6⟩ := ih h
      exact ⟨q :: earlier, p, by simp [issueAll, h1], List.mem_cons_of_mem _ h2, h3, Nat.succ_lt_succ h4,
        by simpa using h5, by simpa using h6⟩

/-- No request is issued but those given. -/
theorem mem_of_mem_issued {qs : List DeviceRequest} {rs : List Reply} {q : DeviceRequest}
    (h : q ∈ (issueAll qs rs).issued) : q ∈ qs := by
  induction qs generalizing rs with
  | nil => exact h
  | cons p qs ih =>
    match rs with
    | [] => simp_all [issueAll]
    | .failure :: rs => simp_all [issueAll]
    | .success :: rs =>
      rcases List.mem_cons.mp h with rfl | h
      · exact List.mem_cons_self
      · exact List.mem_cons_of_mem _ (ih h)

/-- A report stands nowhere but at the end of the process. -/
theorem process_eq (v : Invocation) :
    v.process = v.events.map .device ++ (reportOf v.invEnd).toList.map .reported := rfl

end Sys2Proof.Machine
end

