-- ==== Sys2Proof/Laws/Memory.lean ====
section
/-! SUPPORT. The laws of the byte memory: a read after a write, the cells a write leaves alone, and the canonical form. -/

namespace Sys2Proof.Machine

@[simp] theorem Memory.read_nil (a : Nat) : Memory.read [] a = none := rfl

@[simp] theorem Memory.read_write_same (m : Memory) (a : Nat) (v : Byte) : (m.write a v).read a = some v := by
  induction m with
  | nil => simp [Memory.write, Memory.read]
  | cons kw rest ih =>
    obtain ⟨k, w⟩ := kw
    by_cases h1 : a < k
    · simp [Memory.write, Memory.read, h1]
    · by_cases h2 : a = k
      · simp [Memory.write, Memory.read, h2]
      · simpa [Memory.write, Memory.read, h1, h2, Ne.symm h2] using ih

theorem Memory.read_write_other (m : Memory) {a b : Nat} (v : Byte) (h : b ≠ a) :
    (m.write a v).read b = m.read b := by
  induction m with
  | nil => simp [Memory.write, Memory.read, Ne.symm h]
  | cons kw rest ih =>
    obtain ⟨k, w⟩ := kw
    by_cases h1 : a < k
    · simp [Memory.write, Memory.read, h1, Ne.symm h]
    · by_cases h2 : a = k
      · subst h2; simp [Memory.write, Memory.read, Ne.symm h]
      · simp only [Memory.write, h1, h2, if_false, Memory.read]
        split
        · rfl
        · exact ih

/-- Every cell after a write. -/
theorem Memory.read_write (m : Memory) (a b : Nat) (v : Byte) :
    (m.write a v).read b = if b = a then some v else m.read b := by
  by_cases h : b = a
  · subst h; simp
  · simp [h, Memory.read_write_other m v h]

/-- A write's addresses are the old ones and the one written. -/
theorem Memory.mem_write {m : Memory} {a : Nat} {v : Byte} {c : Host.Cell} (h : c ∈ m.write a v) :
    c = (a, v) ∨ c ∈ m := by
  induction m with
  | nil => simpa [Memory.write] using h
  | cons kw rest ih =>
    obtain ⟨k, w⟩ := kw
    simp only [Memory.write] at h
    split at h
    · simpa using h
    · split at h
      · rcases List.mem_cons.mp h with h | h
        · exact .inl h
        · exact .inr (List.mem_cons_of_mem _ h)
      · rcases List.mem_cons.mp h with h | h
        · exact .inr (h ▸ List.mem_cons_self ..)
        · exact (ih h).imp id (List.mem_cons_of_mem _)

theorem Memory.wf_nil : Memory.wf [] := List.Pairwise.nil

/-- A write keeps the canonical form. -/
theorem Memory.write_wf {m : Memory} (h : m.wf) (a : Nat) (v : Byte) : (m.write a v).wf := by
  induction m with
  | nil => simp [Memory.write, Memory.wf]
  | cons kw rest ih =>
    obtain ⟨k, w⟩ := kw
    obtain ⟨h1, h2⟩ := List.pairwise_cons.mp h
    simp only [Memory.write]
    split
    · rename_i hlt
      refine List.pairwise_cons.mpr ⟨fun c hc => ?_, h⟩
      rcases List.mem_cons.mp hc with rfl | hc
      · exact hlt
      · exact Nat.lt_trans hlt (h1 c hc)
    · split
      · rename_i heq
        subst heq
        exact List.pairwise_cons.mpr ⟨h1, h2⟩
      · rename_i hn he
        refine List.pairwise_cons.mpr ⟨fun c hc => ?_, ih h2⟩
        rcases Memory.mem_write hc with rfl | hc
        · show k < a
          omega
        · exact h1 c hc

/-- Two canonical memories with the same cells are the same list: equal memories are equal data. -/
theorem Memory.wf_ext {m n : Memory} (hm : m.wf) (hn : n.wf) (h : ∀ a, m.read a = n.read a) : m = n := by
  have none_below : ∀ {k : Nat} {l : Memory}, (∀ c ∈ l, k < c.1) → ∀ a, a ≤ k → l.read a = none := by
    intro k l
    induction l with
    | nil => intros; rfl
    | cons c rest ih =>
      intro hl a ha
      have hc := hl c (List.mem_cons_self ..)
      have : c.1 ≠ a := by omega
      simp only [Memory.read, this, if_false]
      exact ih (fun d hd => hl d (List.mem_cons_of_mem _ hd)) a ha
  induction m generalizing n with
  | nil =>
    cases n with
    | nil => rfl
    | cons c rest => simpa [Memory.read] using h c.1
  | cons c rest ih =>
    obtain ⟨k, v⟩ := c
    cases n with
    | nil => simpa [Memory.read] using h k
    | cons d rest' =>
      obtain ⟨k', v'⟩ := d
      obtain ⟨hm1, hm2⟩ := List.pairwise_cons.mp hm
      obtain ⟨hn1, hn2⟩ := List.pairwise_cons.mp hn
      have hk : k = k' := by
        rcases Nat.lt_trichotomy k k' with hlt | heq | hgt
        · have h0 := h k
          have : k' ≠ k := by omega
          simp only [Memory.read, this, if_true, if_false] at h0
          rw [none_below hn1 k (by show k ≤ k'; omega)] at h0
          cases h0
        · exact heq
        · have h0 := h k'
          have : k ≠ k' := by omega
          simp only [Memory.read, this, if_true, if_false] at h0
          rw [none_below hm1 k' (by show k' ≤ k; omega)] at h0
          cases h0
      subst hk
      have hv : v = v' := by simpa [Memory.read] using h k
      subst hv
      rw [ih hm2 hn2]
      intro a
      by_cases ha : k = a
      · subst ha
        rw [none_below hm1 k (Nat.le_refl k), none_below hn1 k (Nat.le_refl k)]
      · simpa [Memory.read, ha] using h a

/-- A cell holds a value exactly when it is listed. -/
theorem Memory.read_isSome (m : Memory) (a : Nat) : (m.read a).isSome = true ↔ a ∈ m.map Prod.fst := by
  induction m with
  | nil => simp
  | cons c rest ih =>
    obtain ⟨k, v⟩ := c
    by_cases h : k = a
    · simp [Memory.read, h]
    · simp only [Memory.read, h, if_false, ih, List.map_cons, List.mem_cons, Ne.symm h, false_or]

/-- The invariant of a state whose memory lists the cells `0 .. LEN-1` in order. -/
theorem StateInv.of_cells {s : State} (hk : s.out.map Prod.fst = List.range s.len)
    (hp : s.acc.toNat < 2 ^ s.cnt.toNat) (hs : statusInv s) (hc : ∀ l, s.cfg.lmax = some l → s.pos ≤ l) :
    StateInv s where
  memory := by
    have h := List.pairwise_lt_range (n := s.len)
    rw [← hk, List.pairwise_map] at h
    exact h
  cells := fun i => by rw [Memory.read_isSome, hk, List.mem_range]
  pending := hp
  status := hs
  capacity := hc

end Sys2Proof.Machine
end

