-- ==== Sys2Proof/Laws/State.lean ====
section
/-! SUPPORT. One lemma per field per update of State, so that no proof unfolds a record update. -/

namespace Sys2Proof.Machine

section fresh
variable (s : State)

@[simp] theorem freshFrame_st : (freshFrame s).st = .OPEN := rfl
@[simp] theorem freshFrame_acc : (freshFrame s).acc = 0#8 := rfl
@[simp] theorem freshFrame_cnt : (freshFrame s).cnt = 0#3 := rfl
@[simp] theorem freshFrame_pos : (freshFrame s).pos = 0 := rfl
@[simp] theorem freshFrame_len : (freshFrame s).len = 0 := rfl
@[simp] theorem freshFrame_out : (freshFrame s).out = [] := rfl
@[simp] theorem freshFrame_errCode : (freshFrame s).errCode = 0#3 := rfl
@[simp] theorem freshFrame_errChar : (freshFrame s).errChar = 0#8 := rfl
@[simp] theorem freshFrame_errPos : (freshFrame s).errPos = 0 := rfl
@[simp] theorem freshFrame_cfg : (freshFrame s).cfg = s.cfg := rfl
@[simp] theorem freshFrame_inputs : (freshFrame s).inputs = s.inputs := rfl

end fresh

section failure
variable (c : CharCode) (p : Nat) (s : State)

@[simp] theorem raiseInvalidInput_st : (raiseInvalidInput c p s).st = .FAILED := rfl
@[simp] theorem raiseInvalidInput_acc : (raiseInvalidInput c p s).acc = 0#8 := rfl
@[simp] theorem raiseInvalidInput_cnt : (raiseInvalidInput c p s).cnt = 0#3 := rfl
@[simp] theorem raiseInvalidInput_pos : (raiseInvalidInput c p s).pos = s.pos := rfl
@[simp] theorem raiseInvalidInput_len : (raiseInvalidInput c p s).len = 0 := rfl
@[simp] theorem raiseInvalidInput_out : (raiseInvalidInput c p s).out = [] := rfl
@[simp] theorem raiseInvalidInput_errCode : (raiseInvalidInput c p s).errCode = 1#3 := rfl
@[simp] theorem raiseInvalidInput_errChar : (raiseInvalidInput c p s).errChar = c := rfl
@[simp] theorem raiseInvalidInput_errPos : (raiseInvalidInput c p s).errPos = p := rfl
@[simp] theorem raiseInvalidInput_cfg : (raiseInvalidInput c p s).cfg = s.cfg := rfl
@[simp] theorem raiseInvalidInput_inputs : (raiseInvalidInput c p s).inputs = s.inputs := rfl

end failure

section inputs
variable (s : State) (xs : List Input)

@[simp] theorem withInputs_st : (withInputs s xs).st = s.st := rfl
@[simp] theorem withInputs_acc : (withInputs s xs).acc = s.acc := rfl
@[simp] theorem withInputs_cnt : (withInputs s xs).cnt = s.cnt := rfl
@[simp] theorem withInputs_pos : (withInputs s xs).pos = s.pos := rfl
@[simp] theorem withInputs_len : (withInputs s xs).len = s.len := rfl
@[simp] theorem withInputs_out : (withInputs s xs).out = s.out := rfl
@[simp] theorem withInputs_errCode : (withInputs s xs).errCode = s.errCode := rfl
@[simp] theorem withInputs_errChar : (withInputs s xs).errChar = s.errChar := rfl
@[simp] theorem withInputs_errPos : (withInputs s xs).errPos = s.errPos := rfl
@[simp] theorem withInputs_cfg : (withInputs s xs).cfg = s.cfg := rfl
@[simp] theorem withInputs_inputs : (withInputs s xs).inputs = xs := rfl

@[simp] theorem freshFrame_withInputs : freshFrame (withInputs s xs) = withInputs (freshFrame s) xs := rfl

end inputs

/-! ## push_unit: what it never touches -/

section push
variable (u : LineUnit) (s : State)

@[simp] theorem pushUnit_st : (pushUnit u s).st = s.st := by unfold pushUnit; split <;> rfl
@[simp] theorem pushUnit_pos : (pushUnit u s).pos = s.pos := by unfold pushUnit; split <;> rfl
@[simp] theorem pushUnit_errCode : (pushUnit u s).errCode = s.errCode := by unfold pushUnit; split <;> rfl
@[simp] theorem pushUnit_errChar : (pushUnit u s).errChar = s.errChar := by unfold pushUnit; split <;> rfl
@[simp] theorem pushUnit_errPos : (pushUnit u s).errPos = s.errPos := by unfold pushUnit; split <;> rfl
@[simp] theorem pushUnit_cfg : (pushUnit u s).cfg = s.cfg := by unfold pushUnit; split <;> rfl
@[simp] theorem pushUnit_inputs : (pushUnit u s).inputs = s.inputs := by unfold pushUnit; split <;> rfl

end push

@[simp] theorem pushUnits_nil (s : State) : pushUnits [] s = s := rfl
@[simp] theorem pushUnits_cons (u : LineUnit) (us : List LineUnit) (s : State) :
    pushUnits (u :: us) s = pushUnits us (pushUnit u s) := rfl

section pushes
variable (us : List LineUnit) (s : State)

@[simp] theorem pushUnits_st : (pushUnits us s).st = s.st := by induction us generalizing s <;> simp_all
@[simp] theorem pushUnits_pos : (pushUnits us s).pos = s.pos := by induction us generalizing s <;> simp_all
@[simp] theorem pushUnits_errCode : (pushUnits us s).errCode = s.errCode := by induction us generalizing s <;> simp_all
@[simp] theorem pushUnits_errChar : (pushUnits us s).errChar = s.errChar := by induction us generalizing s <;> simp_all
@[simp] theorem pushUnits_errPos : (pushUnits us s).errPos = s.errPos := by induction us generalizing s <;> simp_all
@[simp] theorem pushUnits_cfg : (pushUnits us s).cfg = s.cfg := by induction us generalizing s <;> simp_all
@[simp] theorem pushUnits_inputs : (pushUnits us s).inputs = s.inputs := by induction us generalizing s <;> simp_all

end pushes

end Sys2Proof.Machine
end

