-- ==== Sys2Proof/Laws/Ops.lean ====
section
/-! SUPPORT. What each shared operation and each meaning can do, said once. -/

namespace Sys2Proof.Machine

/-- `push_unit` on a unit that is not the eighth. -/
theorem pushUnit_pending {u : LineUnit} {s : State} (h : s.cnt.toNat ≠ 7) :
    pushUnit u s =
      { s with acc := shiftIn s.acc u, cnt := BitVec.ofNat 3 (s.cnt.toNat + 1) } := by
  simp [pushUnit, h]

/-- `push_unit` on the eighth unit. -/
theorem pushUnit_eighth {u : LineUnit} {s : State} (h : s.cnt.toNat = 7) :
    pushUnit u s =
      { s with out := s.out.write s.len (shiftIn s.acc u), len := s.len + 1, acc := 0#8, cnt := 0#3 } := by
  simp [pushUnit, h]

/-- Everything `push_unit` can do: count the unit, or write the byte it completes at index `LEN`. -/
theorem pushUnit_cases (u : LineUnit) (s : State) :
    (s.cnt.toNat ≠ 7 ∧ (pushUnit u s).out = s.out ∧ (pushUnit u s).len = s.len ∧
      (pushUnit u s).acc = shiftIn s.acc u ∧ (pushUnit u s).cnt.toNat = s.cnt.toNat + 1) ∨
    (s.cnt.toNat = 7 ∧ (pushUnit u s).out = s.out.write s.len (shiftIn s.acc u) ∧
      (pushUnit u s).len = s.len + 1 ∧ (pushUnit u s).acc = 0#8 ∧ (pushUnit u s).cnt = 0#3) := by
  by_cases h : s.cnt.toNat = 7
  · right
    rw [pushUnit_eighth h]
    exact ⟨h, rfl, rfl, rfl, rfl⟩
  · left
    rw [pushUnit_pending h]
    refine ⟨h, rfl, rfl, rfl, ?_⟩
    have := s.cnt.isLt
    simp only [BitVec.toNat_ofNat]
    omega

/-- `push_unit` keeps the memory's canonical form. -/
theorem pushUnit_wf {u : LineUnit} {s : State} (h : s.out.wf) : (pushUnit u s).out.wf := by
  rcases pushUnit_cases u s with ⟨-, ho, -⟩ | ⟨-, ho, -⟩ <;> rw [ho]
  · exact h
  · exact Memory.write_wf h _ _

theorem pushUnits_wf {us : List LineUnit} {s : State} (h : s.out.wf) : (pushUnits us s).out.wf := by
  induction us generalizing s with
  | nil => exact h
  | cons u us ih => exact ih (pushUnit_wf h)

/-- `8 * LEN + CNT` counts the units pushed. -/
theorem pushUnits_total (us : List LineUnit) (s : State) :
    8 * (pushUnits us s).len + (pushUnits us s).cnt.toNat = 8 * s.len + s.cnt.toNat + us.length := by
  induction us generalizing s with
  | nil => simp
  | cons u us ih =>
    rw [pushUnits_cons, ih, List.length_cons]
    rcases pushUnit_cases u s with ⟨-, -, hl, -, hc⟩ | ⟨h7, -, hl, -, hc⟩
    · omega
    · rw [hc]; simp only [BitVec.toNat_ofNat]; omega

/-- Everything BIT0 and BIT1 can do. -/
theorem acceptBit_next_cases {b : LogicalBit} {s t : State} (h : acceptBit b s = .next t) :
    (s.st = .OPEN ∧ atCapacity s = false ∧ t = { pushUnits (sym b) s with pos := s.pos + 1 }) ∨
    (s.st ≠ .OPEN ∧ t = s) := by
  unfold acceptBit at h
  cases hst : s.st <;> simp only [hst] at h
  · split at h
    · cases h
    · cases h
      exact .inl ⟨rfl, by simp_all, by simp⟩
  · cases h; exact .inr ⟨by simp, rfl⟩
  · cases h; exact .inr ⟨by simp, rfl⟩

/-- Everything BADCHAR can do. -/
theorem execBadChar_next_cases {c : CharCode} {s t : State} (h : execBadChar c s = .next t) :
    (s.st = .OPEN ∧ t = raiseInvalidInput c s.pos s) ∨ (s.st ≠ .OPEN ∧ t = s) := by
  unfold execBadChar at h
  cases hst : s.st <;> simp only [hst] at h <;> cases h
  · exact .inl ⟨rfl, rfl⟩
  · exact .inr ⟨by simp, rfl⟩
  · exact .inr ⟨by simp, rfl⟩

/-- Everything END can do. -/
theorem execEnd_next_cases {s t : State} (h : execEnd s = .next t) :
    (s.st = .OPEN ∧ t = { pushUnits (List.replicate (fillerCount s) false) s with st := .DONE }) ∨
    (s.st ≠ .OPEN ∧ t = s) := by
  unfold execEnd at h
  cases hst : s.st <;> simp only [hst] at h <;> cases h
  · exact .inl ⟨rfl, rfl⟩
  · exact .inr ⟨by simp, rfl⟩
  · exact .inr ⟨by simp, rfl⟩

/-- Everything an instruction can do when it answers a next state: hold the state, emit one symbol, pad and produce,
fail the frame, or begin a fresh one. -/
theorem exec_next_cases {i : Instr} {s t : State} (h : exec i s = .next t) :
    (t = s ∧ s.st ≠ .OPEN) ∨
    (∃ b, (b = false ∧ i = .bit0 ∨ b = true ∧ i = .bit1) ∧ s.st = .OPEN ∧ atCapacity s = false ∧
      t = { pushUnits (sym b) s with pos := s.pos + 1 }) ∨
    (i = .endFrame ∧ s.st = .OPEN ∧
      t = { pushUnits (List.replicate (fillerCount s) false) s with st := .DONE }) ∨
    (∃ c, i = .badChar c ∧ s.st = .OPEN ∧ t = raiseInvalidInput c s.pos s) ∨
    (i = .start ∧ t = freshFrame s) := by
  cases i with
  | bit0 =>
    rcases acceptBit_next_cases (b := false) h with ⟨h1, h2, h3⟩ | ⟨h1, h2⟩
    · exact .inr (.inl ⟨false, .inl ⟨rfl, rfl⟩, h1, h2, h3⟩)
    · exact .inl ⟨h2, h1⟩
  | bit1 =>
    rcases acceptBit_next_cases (b := true) h with ⟨h1, h2, h3⟩ | ⟨h1, h2⟩
    · exact .inr (.inl ⟨true, .inr ⟨rfl, rfl⟩, h1, h2, h3⟩)
    · exact .inl ⟨h2, h1⟩
  | badChar c =>
    rcases execBadChar_next_cases h with ⟨h1, h2⟩ | ⟨h1, h2⟩
    · exact .inr (.inr (.inr (.inl ⟨c, rfl, h1, h2⟩)))
    · exact .inl ⟨h2, h1⟩
  | endFrame =>
    rcases execEnd_next_cases h with ⟨h1, h2⟩ | ⟨h1, h2⟩
    · exact .inr (.inr (.inl ⟨rfl, h1, h2⟩))
    · exact .inl ⟨h2, h1⟩
  | start => cases h; exact .inr (.inr (.inr (.inr ⟨rfl, rfl⟩)))
  | reserved ch => cases h

/-- Everything a step can do: hold the state when nothing is sent, or perform the next input. -/
theorem step_next_cases {s t : State} (h : step s = .next t) :
    (s.inputs = [] ∧ t = s) ∨ (∃ x rest, s.inputs = x :: rest ∧ perform x (withInputs s rest) = .next t) := by
  unfold step at h
  split at h
  · rename_i h0
    cases h
    exact .inl ⟨h0, rfl⟩
  · rename_i x rest h0
    exact .inr ⟨x, rest, h0, h⟩

/-- Everything one input can do. -/
theorem perform_next_cases {x : Input} {s t : State} (h : perform x s = .next t) :
    (x = .reset ∧ t = freshFrame s) ∨ (∃ w, x = .command w ∧ exec (decode w) s = .next t) := by
  cases x with
  | reset => cases h; exact .inl ⟨rfl, rfl⟩
  | command w => exact .inr ⟨w, rfl, h⟩

/-- `runSteps` is the host's run of the machine. -/
theorem runSteps_eq_core_run (k : Nat) (s : Sys2Proof.core.State) : runSteps k s = Sys2Proof.core.run k s := by
  induction k generalizing s with
  | zero => rfl
  | succ k ih =>
    have host : Sys2Proof.core.run (k + 1) s =
        match Sys2Proof.core.step s with
        | .next t => Sys2Proof.core.run k t
        | .fault r => .fault r
        | .refused r => .refused r := by
      simp only [Host.Core.run]
      cases Sys2Proof.core.step s <;> rfl
    rw [host]
    change (match Sys2Proof.core.step s with
      | .next t => runSteps k t
      | .fault r => .fault r
      | .refused r => .refused r) = _
    cases Sys2Proof.core.step s with
    | next t => exact ih t
    | fault r => rfl
    | refused r => rfl

/-- One step of a run that has an input to come. -/
theorem runSteps_succ (k : Nat) (s : State) (x : Input) (xs : List Input) :
    runSteps (k + 1) (withInputs s (x :: xs)) =
      match perform x (withInputs s xs) with
      | .next t => runSteps k t
      | .fault r => .fault r
      | .refused r => .refused r := rfl

/-- A run after a run. -/
theorem runSteps_add {j : Nat} (k : Nat) {s t : State} (h : runSteps j s = .next t) :
    runSteps (j + k) s = runSteps k t := by
  induction j generalizing s with
  | zero => cases h; simp
  | succ j ih =>
    rw [Nat.succ_add]
    simp only [runSteps] at h ⊢
    cases hs : step s with
    | next u => rw [hs] at h; exact ih h
    | fault r => rw [hs] at h; cases h
    | refused r => rw [hs] at h; cases h

end Sys2Proof.Machine
end

