-- ==== Sys2Proof/Laws/PerInstr.lean ====
section
/-! SUPPORT. The family RowMatch: an instruction's word matches its own row of the opcode table (30_encoding.md R56). -/

namespace Sys2Proof.Laws.RowMatch

/-- The row of an instruction's mnemonic matches the instruction's word, its excluded words left out. -/
def Statement (i : Instr) : Prop :=
  i.wellFormed = true → ∃ r ∈ opcodeRows, r.mnemonic = i.mnemonic ∧ r.hitsAlone (encode i) = true

theorem bit0 : Statement .bit0 := fun _ => ⟨_, List.mem_cons_self .., rfl, by decide⟩

theorem bit1 : Statement .bit1 :=
  fun _ => ⟨⟨.BIT1, 0x031#10, 0x3FF#10, []⟩, by decide, rfl, by decide⟩

theorem badChar (c : CharCode) : Statement (.badChar c) := by
  have key : ∀ c : CharCode, validChar c = false →
      OpcodeRow.hitsAlone ⟨.BADCHAR, 0x000#10, 0x300#10, [0x030#10, 0x031#10]⟩ (encode (.badChar c)) = true := by
    decide
  intro h
  exact ⟨⟨.BADCHAR, 0x000#10, 0x300#10, [0x030#10, 0x031#10]⟩, by decide, rfl,
    key c (by simpa [Instr.wellFormed] using h)⟩

theorem endFrame : Statement .endFrame :=
  fun _ => ⟨⟨.END, 0x100#10, 0x300#10, []⟩, by decide, rfl, by decide⟩

theorem start : Statement .start :=
  fun _ => ⟨⟨.START, 0x200#10, 0x300#10, []⟩, by decide, rfl, by decide⟩

theorem reserved (ch : BitVec 8) : Statement (.reserved ch) := by
  have key : ∀ ch : BitVec 8,
      OpcodeRow.hitsAlone ⟨.RESERVED, 0x300#10, 0x300#10, []⟩ (encode (.reserved ch)) = true := by
    decide
  exact fun _ => ⟨⟨.RESERVED, 0x300#10, 0x300#10, []⟩, by decide, rfl, key ch⟩

end Sys2Proof.Laws.RowMatch
end

