-- ==== Sys2Proof/Tests/Slice0.lean ====
section
/-! SUPPORT. Tests against the spec's own vectors (95_test_vectors.md) and, for every statement with hypotheses, a witness
that meets them. -/

namespace Sys2Proof.Tests

open Sys2Proof Sys2Proof.Machine

/-! ## A state as 95_test_vectors.md writes it -/

/-- The bytes as cells from index `k` on. -/
def cellsFrom : Nat → List Byte → Memory
  | _, [] => []
  | k, v :: vs => (k, v) :: cellsFrom (k + 1) vs

/-- A state without error in the notation `ST POS CNT ACC LEN OUT` (`LEN` is the number of bytes). -/
def st (f : FrameState) (pos : Nat) (cnt : BitVec 3) (acc : BitVec 8) (out : List Byte) : State :=
  { State.reset with st := f, pos := pos, cnt := cnt, acc := acc, len := out.length, out := cellsFrom 0 out }

/-- `FAILED POS 0 0x00 0 - 1/c/POS`. -/
def failedAt (c : CharCode) (pos : Nat) : State :=
  { State.reset with st := .FAILED, pos := pos, errCode := 1#3, errChar := c, errPos := pos }

/-- The same state with a finite `LMAX`. -/
def limit (l : Nat) (s : State) : State := { s with cfg := ⟨some l⟩ }

/-- The characters of a written string, all of them codes below 256. -/
def codes (s : List Char) : List CharCode := s.map fun c => BitVec.ofNat 8 c.toNat

/-- The outcome is this next state. -/
def nextIs (o : Host.Outcome State Fault Refusal) (t : State) : Bool :=
  match o with
  | .next s => decide (s = t)
  | .fault _ => false
  | .refused _ => false

/-- The outcome is this refusal. -/
def refusedWith (o : Host.Outcome State Fault Refusal) (r : Refusal) : Bool :=
  match o with
  | .next _ => false
  | .fault _ => false
  | .refused q => decide (q = r)

/-! ## Well-formedness (30_encoding.md R56, 40_symbol_map.md R72): the ill-formed terms are refused -/

theorem test_badChar_of_zero_is_ill_formed : (Instr.badChar 0x30#8).wellFormed = false := by decide

theorem test_badChar_of_one_is_ill_formed : (Instr.badChar 0x31#8).wellFormed = false := by decide

theorem test_badChar_neighbours_are_well_formed :
    (Instr.badChar 0x2F#8).wellFormed = true ∧ (Instr.badChar 0x32#8).wellFormed = true := by decide

/-! ## Decoding: words written out bit by bit from 30_encoding.md R51, R56 and 95_test_vectors.md 2.1 -/

theorem test_decode_bit0 : decode 0b0000110000#10 = .bit0 := by decide

theorem test_decode_bit1 : decode 0b0000110001#10 = .bit1 := by decide

theorem test_decode_badChar_letter_a : decode 0b0001100001#10 = .badChar 0x61#8 := by decide

theorem test_decode_badChar_line_feed_and_bit_seven :
    decode 0b0000001010#10 = .badChar 0x0A#8 ∧ decode 0b0010110000#10 = .badChar 0xB0#8 := by decide

theorem test_decode_end_ignores_ch : decode 0b0100000000#10 = .endFrame ∧ decode 0b0100110000#10 = .endFrame := by
  decide

theorem test_decode_start_ignores_ch : decode 0b1000000000#10 = .start ∧ decode 0b1000110001#10 = .start := by decide

theorem test_decode_reserved : decode 0b1100000000#10 = .reserved 0x00#8 ∧ decode 0b1111111111#10 = .reserved 0xFF#8 := by
  decide

theorem test_decode_refuses_eleven_bits : decodeTableWord 16 0x400 = none := by decide

theorem test_encode_words :
    encode .bit0 = 0x030#10 ∧ encode .bit1 = 0x031#10 ∧ encode (.badChar 0x20#8) = 0x020#10 ∧
    encode .endFrame = 0x100#10 ∧ encode .start = 0x200#10 := by decide

/-! ## One step of each instruction (95_test_vectors.md 2.2, 2.3, 2.6) -/

/-- 2.2, prefix "10": the symbol straddles two bytes. -/
theorem test_bit0_straddles_two_bytes :
    nextIs (exec .bit0 (st .OPEN 2 6#3 0x31#8 [])) (st .OPEN 3 1#3 0x01#8 [0xC4#8]) = true := by decide

/-- 2.2, prefix "1011001": the symbol completes the byte. -/
theorem test_bit0_completes_the_byte :
    nextIs (exec .bit0 (st .OPEN 7 5#3 0x0E#8 [0xC7#8, 0x62#8])) (st .OPEN 8 0#3 0x00#8 [0xC7#8, 0x62#8, 0x71#8])
      = true := by decide

/-- 2.2, prefix "10110": one unit of the symbol enters the old byte. -/
theorem test_bit1_straddles_two_bytes :
    nextIs (exec .bit1 (st .OPEN 5 7#3 0x31#8 [0xC7#8])) (st .OPEN 6 2#3 0x02#8 [0xC7#8, 0x63#8]) = true := by decide

/-- 2.6: at `POS = LMAX = 4`. -/
theorem test_bit1_refused_at_capacity :
    refusedWith (exec .bit1 (limit 4 (st .OPEN 4 4#3 0x01#8 [0xC7#8]))) .capacityExceeded = true := by decide

/-- 2.2: after "101" a space fails the frame and discards the byte. -/
theorem test_badChar_discards_the_frame :
    nextIs (exec (.badChar 0x20#8) (st .OPEN 3 1#3 0x00#8 [0xC7#8])) (failedAt 0x20#8 3) = true := by decide

/-- 2.6: at `POS = LMAX = 4` an invalid character still fails the frame. -/
theorem test_badChar_at_capacity_fails_the_frame :
    nextIs (exec (.badChar 0x61#8) (limit 4 (st .OPEN 4 4#3 0x01#8 [0xC7#8]))) (limit 4 (failedAt 0x61#8 4)) = true := by
  decide

/-- S9, P1 step 6: "1010" ends in `C7 10`. -/
theorem test_end_pads_the_last_byte :
    nextIs (exec .endFrame (st .OPEN 4 4#3 0x01#8 [0xC7#8])) (st .DONE 4 0#3 0x00#8 [0xC7#8, 0x10#8]) = true := by decide

/-- P3 step 9: a multiple of 8 gets no padding. -/
theorem test_end_without_padding :
    nextIs (exec .endFrame (st .OPEN 8 0#3 0x00#8 [0x24#8, 0x92#8, 0x49#8]))
      (st .DONE 8 0#3 0x00#8 [0x24#8, 0x92#8, 0x49#8]) = true := by decide

/-- 42_frame_control.md R90, example. -/
theorem test_start_leaves_failed : nextIs (exec .start (failedAt 0x61#8 2)) State.reset = true := by decide

/-- P5 step 8: an open frame is abandoned. -/
theorem test_start_abandons_an_open_frame :
    nextIs (exec .start (st .OPEN 3 1#3 0x00#8 [0xDB#8])) State.reset = true := by decide

/-- 2.6: `0x300` is refused in any state. -/
theorem test_reserved_refused :
    refusedWith (perform (.command 0x300#10) (st .OPEN 3 1#3 0x00#8 [0xC7#8])) (.reservedCommand 0x00#8) = true := by decide

/-- P5 step 2: a produced buffer does not become a failure. -/
theorem test_done_absorbs_badChar :
    nextIs (perform (.command 0x061#10) (st .DONE 4 0#3 0x00#8 [0xC7#8, 0x10#8])) (st .DONE 4 0#3 0x00#8 [0xC7#8, 0x10#8])
      = true := by decide

/-- 41_byte_packer.md R80, example. -/
theorem test_pushUnit_writes_the_eighth :
    pushUnit true (st .OPEN 0 7#3 0x63#8 []) = st .OPEN 0 0#3 0x00#8 [0xC7#8] := by decide

/-! ## Step and fetch -/

/-- P6 step 1, placed by `withFetchWord` as the first command after reset. -/
theorem test_first_command_after_reset :
    nextIs (step (State.reset.withFetchWord 16 0x031)) (st .OPEN 1 3#3 0x06#8 []) = true := by decide

/-- 60_exceptions.md R165: with nothing sent the state is held. -/
theorem test_nothing_sent_holds_the_state : nextIs (step State.reset) State.reset = true := by decide

/-- 70_reset_and_hazards.md R170. -/
theorem test_reset_input_after_done :
    nextIs (step (withInputs (st .DONE 1 0#3 0x00#8 [0xC0#8]) [.reset])) State.reset = true := by decide

theorem test_reset_memory_wf : State.reset.out.wf := by decide

/-! ## Reads (95_test_vectors.md 2.6) -/

theorem test_view_busy : view (st .OPEN 3 1#3 0x00#8 [0xC7#8]) = .busy := by decide

theorem test_view_ok : view (st .DONE 4 0#3 0x00#8 [0xC7#8, 0x10#8]) = .ok [0xC7#8, 0x10#8] := by decide

theorem test_view_ok_empty : view (st .DONE 0 0#3 0x00#8 []) = .ok [] := by decide

theorem test_view_err : view (failedAt 0x61#8 2) = .err 0x61#8 2 := by decide

theorem test_memRead_at_the_edge :
    memRead 1 (st .DONE 4 0#3 0x00#8 [0xC7#8, 0x10#8]) = .value 0x10#8 ∧
    memRead 2 (st .DONE 4 0#3 0x00#8 [0xC7#8, 0x10#8]) = .refused .readUnavailable := by decide

theorem test_memRead_before_end :
    memRead 0 (st .OPEN 3 1#3 0x00#8 [0xC7#8]) = .refused .readUnavailable := by decide

/-- 60_exceptions.md R151. -/
theorem test_cause_codes :
    [ErrorKind.invalidInput, .deviceNotFound, .deviceConfig, .unrepresentableRate, .transfer].map ErrorKind.code
      = [1#3, 2#3, 3#3, 4#3, 5#3] := by decide

/-- 10_state.md R11. -/
theorem test_frame_state_codes :
    [0b00#2, 0b01#2, 0b10#2, 0b11#2].map FrameState.ofCode = [some .OPEN, some .DONE, some .FAILED, none] := by decide

/-! ## The reference functions (95_test_vectors.md 2.4, 2.5) -/

theorem test_encodeStr_1010 : encodeStr (codes ['1', '0', '1', '0']) = .packedBuffer [0xC7#8, 0x10#8] := by decide

theorem test_encodeStr_110100101 :
    encodeStr (codes ['1', '1', '0', '1', '0', '0', '1', '0', '1']) = .packedBuffer [0xD8#8, 0xE2#8, 0x71#8, 0xC0#8] := by
  decide

theorem test_encodeStr_reports_only_the_first :
    encodeStr (codes ['1', 'x', '0', 'y']) = .invalidInputError 0x78#8 1 := by decide

theorem test_decodeBuffer_one_unit_left :
    decodeBuffer [0xC7#8, 0x62#8] = .value [true, false, true, true, false] := by decide

theorem test_decodeBuffer_refuses_other_bytes : decodeBuffer [0xFF#8] = .refused .notAnEncodedBuffer := by decide

/-! ## The divisor search (95_test_vectors.md 2.7) -/

/-- The candidate set `P`. -/
def candidatesP : List Int := [1, 2, 4, 8, 16, 32, 64, 128, 256]

/-- A call with `F` = 12,000,000 and `M` in [1, 255]. -/
def rate (t : Int) (c : List Int) (num den : Int) : DivisorQuery :=
  { targetRate := t, referenceFrequency := 12000000, candidates := c, mLo := 1, mHi := 255, tolNum := num, tolDen := den }

theorem test_divisors_reference_case : divisorsFor (rate 2500 candidatesP 0 1) = .next (32, 150) := rfl

theorem test_divisors_any_order_of_candidates : divisorsFor (rate 2500 [64, 32, 128] 0 1) = .next (32, 150) := rfl

theorem test_divisors_none_fits : divisorsFor (rate 9600 candidatesP 1 1000) = .fault .unrepresentableRate := rfl

theorem test_divisors_within_tolerance : divisorsFor (rate 9600 candidatesP 1 100) = .next (8, 156) := rfl

theorem test_divisors_no_candidates : divisorsFor (rate 2500 [] 0 1) = .fault .unrepresentableRate := rfl

theorem test_divisors_half_rounds_up :
    divisorsFor ⟨1, 20, [8], 1, 255, 1, 4⟩ = .next (8, 3) := rfl

theorem test_divisors_outside_the_domain :
    divisorsFor (rate 2500 [3] 0 1) = .refused .divisorsOutsideDomain ∧
    divisorsFor (rate 0 candidatesP 0 1) = .refused .divisorsOutsideDomain := ⟨rfl, rfl⟩

/-! ## The surrounding system (95_test_vectors.md 2.8, P7) -/

theorem test_chunk_sizes_and_offsets :
    (chunksOf 32 (List.replicate 100 0xDB#8)).map (fun c => (c.offset, c.payload.length))
      = [(0, 32), (32, 32), (64, 32), (96, 4)] := by decide

theorem test_chunk_payloads :
    chunksOf 2 [1#8, 2#8, 3#8, 4#8, 5#8] = [⟨0, [1#8, 2#8]⟩, ⟨2, [3#8, 4#8]⟩, ⟨4, [5#8]⟩] := by decide

/-- "A `TransferError` on the third chunk of the first row reports byte offset 64". -/
theorem test_third_chunk_fails :
    (transmit (List.replicate 100 0xDB#8) 32 [.success, .success, .failure]).callEnd = .fault (.transfer 64) := by decide

/-- The reference case's job, with a string. -/
def jobOf (s : List Char) : Job :=
  { device := ⟨3, 4⟩, chars := codes s, query := rate 2500 candidatesP 0 1, maxChunkSize := 32, cfg := Config.unbounded }

/-- The adapter and another device attached, with these answers. -/
def envOf (rs : List Reply) : Environment :=
  { attached := [⟨1, 2⟩, ⟨3, 4⟩], replies := rs, clock := .unconfigured, divisorsFirst := false }

/-- P7: the whole invocation of "1010". -/
theorem test_invocation_of_1010 :
    invoke (jobOf ['1', '0', '1', '0']) (envOf [.success, .success, .success, .success]) =
      { events := [.lookup ⟨3, 4⟩, .acquire, .request (.configure Config.modeEnableRequest),
          .request (.configure (Config.setNRequest 32)), .request (.configure (Config.setMRequest 150)),
          .request (.data ⟨0, [0xC7#8, 0x10#8]⟩), .release],
        phases := [.Idle, .Configuring, .Transmitting, .Done], clock := .configured 32 150, handleHeld := false,
        invEnd := .success [0xC7#8, 0x10#8] } := rfl

/-- P7, S8: the invocation of "10a1". -/
theorem test_invocation_of_10a1 :
    (invoke (jobOf ['1', '0', 'a', '1']) (envOf [])).invEnd = .error (.invalidInput 0x61#8 2) ∧
    (invoke (jobOf ['1', '0', 'a', '1']) (envOf [])).events = [] := ⟨rfl, rfl⟩

/-- R123, R139 step 4. -/
theorem test_failed_configuration_sends_no_data :
    (invoke (jobOf ['1']) (envOf [.success, .failure])).invEnd = .error (.device .deviceConfig) ∧
    (invoke (jobOf ['1']) (envOf [.success, .failure])).clock = .unconfirmed := ⟨rfl, rfl⟩

/-- R134, R139 step 2; R137, R150: the missing device is the error's context. -/
theorem test_missing_adapter :
    (invoke (jobOf ['1']) { envOf [] with attached := [⟨3, 5⟩] }).invEnd = .error (.device (.deviceNotFound ⟨3, 4⟩)) ∧
    (SystemError.device (.deviceNotFound ⟨3, 4⟩)).context = .missingDevice ⟨3, 4⟩ := ⟨rfl, rfl⟩

/-- R137: the handle is released before the outcome is reported. -/
theorem test_report_follows_release :
    (invoke (jobOf ['1']) (envOf [.failure])).process =
      [.device (.lookup ⟨3, 4⟩), .device .acquire, .device (.request (.configure Config.modeEnableRequest)),
        .device .release,
        .reported (.failure (Config.diagnosticText 3 .nothing) (Config.failureStatusPred 3 + 1))] := rfl

/-- R122: the second invocation's pair overwrites the first's, which lasts while nothing is applied. -/
theorem test_clock_persists_and_is_overwritten :
    (invokeAll [(jobOf ['1'], envOf [.success, .success, .success, .success]), (jobOf ['a'], envOf []),
      ({ jobOf [] with query := rate 5000 candidatesP 0 1 }, envOf [.success, .success, .success])] .unconfigured).map
        Invocation.clock = [.configured 32 150, .configured 32 150, .configured 16 150] := rfl

/-- 70_reset_and_hazards.md R186: a unit, a logical bit, a byte, a full chunk, and the frame "1010" at 2500 per second. -/
theorem test_durations_at_the_reference_rate :
    [1, 3, 8, 256, frameUnits 4].map (microseconds · 2500) = [400, 1200, 3200, 102400, 6400] := by decide

/-! ## The assembly syntax (30_encoding.md R62) -/

theorem test_assemble_encode_10 : assemble [.encode (codes ['1', '0'])] = [0x200#10, 0x031#10, 0x030#10, 0x100#10] := by
  decide

theorem test_parse_char_forms :
    parseLine ['C', 'H', 'A', 'R', ' ', '\'', 'a', '\''] = some (.char 0x61#8) ∧
    parseLine ['C', 'H', 'A', 'R', ' ', '0', 'x', '6', '1'] = some (.char 0x61#8) := by decide

theorem test_parse_encode_empty :
    parseLine ['E', 'N', 'C', 'O', 'D', 'E', ' ', '"', '"'] = some (.encode []) := by decide

/-! ## Witnesses: a state and operands that meet all hypotheses of a statement together -/

theorem reset_state_inv (l : Option Nat) (xs : List Input) : StateInv (resetWith ⟨l⟩ xs) :=
  .of_cells rfl (by show (0#8 : BitVec 8).toNat < 2 ^ (0#3 : BitVec 3).toNat; decide) ⟨rfl, rfl, rfl, rfl⟩
    (fun _ _ => Nat.zero_le _)

/-- After "101". -/
theorem open_state_inv : StateInv (st .OPEN 3 1#3 0x00#8 [0xC7#8]) :=
  .of_cells (by decide) (by decide) ⟨rfl, rfl, rfl, rfl⟩ (by simp [st, State.reset, Config.unbounded])

/-- After "00000000". -/
theorem eight_state_inv : StateInv (st .OPEN 8 0#3 0x00#8 [0x24#8, 0x92#8, 0x49#8]) :=
  .of_cells (by decide) (by decide) ⟨rfl, rfl, rfl, rfl⟩ (by simp [st, State.reset, Config.unbounded])

/-- After "1010" and END. -/
theorem done_state_inv : StateInv (st .DONE 4 0#3 0x00#8 [0xC7#8, 0x10#8]) :=
  .of_cells (by decide) (by decide) ⟨rfl, rfl, rfl, rfl, rfl, rfl⟩ (by simp [st, State.reset, Config.unbounded])

/-- After "10a". -/
theorem failed_state_inv : StateInv (failedAt 0x61#8 2) :=
  .of_cells (by decide) (by decide) ⟨rfl, rfl, rfl, rfl, rfl, rfl, by decide, by decide⟩
    (by simp [failedAt, State.reset, Config.unbounded])

/-- After "1010" with `LMAX` 4: full. -/
theorem full_state_inv : StateInv (limit 4 (st .OPEN 4 4#3 0x01#8 [0xC7#8])) :=
  .of_cells (by decide) (by decide) ⟨rfl, rfl, rfl, rfl⟩ (by simp [limit, st])

theorem witness_DecodeEncodeRoundTrip :
    (Instr.badChar 0x2F#8).wellFormed = true ∧ (Instr.reserved 0xFF#8).wellFormed = true := by decide

theorem witness_DecodingFollowsTheOpcodeMap : decode 0x032#10 = .badChar 0x32#8 := by decide

theorem witness_CommandsDecodeByTheirCharacter : kindField 0x2FF#10 ≠ 0b11#2 := by decide

theorem witness_ReservedWordsAreRefused : 0x300 ≤ (0x300#10 : CmdWord).toNat := by decide

theorem witness_LogicalBitIsTheLowBitOfTheCode :
    logicalBit? 0x30#8 = some false ∧ logicalBit? 0x31#8 = some true := by decide

/-- One more character fits, none fits, and the two terminal states. -/
theorem witness_Bit0EmitsSymbol001 :
    ((limit 4 (st .OPEN 3 1#3 0x00#8 [0xC7#8])).st = .OPEN ∧
      (limit 4 (st .OPEN 3 1#3 0x00#8 [0xC7#8])).cfg.lmax ≠ some (limit 4 (st .OPEN 3 1#3 0x00#8 [0xC7#8])).pos) ∧
    ((limit 4 (st .OPEN 4 4#3 0x01#8 [0xC7#8])).st = .OPEN ∧
      (limit 4 (st .OPEN 4 4#3 0x01#8 [0xC7#8])).cfg.lmax = some (limit 4 (st .OPEN 4 4#3 0x01#8 [0xC7#8])).pos) ∧
    (st .DONE 0 0#3 0x00#8 []).st = .DONE ∧ (failedAt 0x61#8 0).st = .FAILED := by decide

theorem witness_Bit1EmitsSymbol110 :
    ((limit 1 (st .OPEN 0 0#3 0x00#8 [])).st = .OPEN ∧
      (limit 1 (st .OPEN 0 0#3 0x00#8 [])).cfg.lmax ≠ some (limit 1 (st .OPEN 0 0#3 0x00#8 [])).pos) ∧
    ((limit 0 State.reset).st = .OPEN ∧ (limit 0 State.reset).cfg.lmax = some (limit 0 State.reset).pos) ∧
    (st .DONE 0 0#3 0x00#8 []).st = .DONE ∧ (failedAt 0x61#8 0).st = .FAILED := by decide

theorem witness_BadCharFailsTheFrame :
    (0x2F#8 ≠ 0x30#8 ∧ 0x2F#8 ≠ 0x31#8) ∧ (limit 4 (st .OPEN 4 4#3 0x01#8 [0xC7#8])).st = .OPEN ∧
    (st .DONE 0 0#3 0x00#8 []).st = .DONE ∧ (failedAt 0x61#8 0).st = .FAILED := by decide

/-- `CNT` 4 (no byte), 5 (a byte), and a frame that is not open. -/
theorem witness_BitsChangeOnlyTheDatapath :
    nextIs (exec .bit0 (st .OPEN 4 4#3 0x06#8 [0xC7#8])) (st .OPEN 5 7#3 0x31#8 [0xC7#8]) = true ∧
    nextIs (exec .bit1 (st .OPEN 7 5#3 0x0E#8 [0xC7#8, 0x62#8])) (st .OPEN 8 0#3 0x00#8 [0xC7#8, 0x62#8, 0x76#8]) = true ∧
    nextIs (exec .bit0 (failedAt 0x61#8 2)) (failedAt 0x61#8 2) = true := by decide

/-- `CNT` 6 and 7, the two sides of the eighth unit, each with `ACC < 2^CNT`. -/
theorem witness_PushUnitShiftsAndWritesTheEighth :
    ((6#3 : BitVec 3).toNat < 7 ∧ (0x3F#8 : BitVec 8).toNat < 2 ^ (6#3 : BitVec 3).toNat) ∧
    ((7#3 : BitVec 3).toNat = 7 ∧ (0x7F#8 : BitVec 8).toNat < 2 ^ (7#3 : BitVec 3).toNat) := by decide

theorem witness_EndPadsAndProducesTheBuffer :
    (0x1FF#10 : CmdWord) &&& 0x300#10 = 0x100#10 ∧
    ((st .OPEN 3 1#3 0x00#8 [0xC7#8]).st = .OPEN ∧ StateInv (st .OPEN 3 1#3 0x00#8 [0xC7#8])) ∧
    (st .DONE 4 0#3 0x00#8 [0xC7#8, 0x10#8]).st = .DONE ∧ (failedAt 0x61#8 2).st = .FAILED :=
  ⟨by decide, ⟨rfl, open_state_inv⟩, rfl, rfl⟩

/-- `CNT` 1 (the last byte is written), 0 (nothing is), and a frame that is not open. -/
theorem witness_EndChangesOnlyTheLastByte :
    nextIs (exec .endFrame (st .OPEN 3 1#3 0x00#8 [0xC7#8])) (st .DONE 3 0#3 0x00#8 [0xC7#8, 0x00#8]) = true ∧
    nextIs (exec .endFrame State.reset) (st .DONE 0 0#3 0x00#8 []) = true ∧
    nextIs (exec .endFrame (failedAt 0x61#8 2)) (failedAt 0x61#8 2) = true := by decide

/-- 7 filler units, and none. -/
theorem witness_FillerCountFollowsTheLength :
    (StateInv (st .OPEN 3 1#3 0x00#8 [0xC7#8]) ∧ fillerCount (st .OPEN 3 1#3 0x00#8 [0xC7#8]) = 7) ∧
    (StateInv (st .OPEN 8 0#3 0x00#8 [0x24#8, 0x92#8, 0x49#8]) ∧
      fillerCount (st .OPEN 8 0#3 0x00#8 [0x24#8, 0x92#8, 0x49#8]) = 0) :=
  ⟨⟨open_state_inv, rfl⟩, eight_state_inv, rfl⟩

theorem witness_StartOpensAFreshFrame :
    (0x2FF#10 : CmdWord) &&& 0x300#10 = 0x200#10 ∧ atResetValues (limit 4 State.reset) :=
  ⟨by decide, rfl, rfl, rfl, rfl, rfl, rfl, rfl, rfl, rfl⟩

/-- With `LMAX` 1, the least that leaves room for a first character. -/
theorem witness_ResetPutsEveryItemAtItsValue :
    atResetValues (limit 1 State.reset) ∧ (limit 1 State.reset).cfg.lmax ≠ some 0 :=
  ⟨⟨rfl, rfl, rfl, rfl, rfl, rfl, rfl, rfl, rfl⟩, by decide⟩

/-- An input that leaves DONE and one that does not. -/
theorem witness_TerminalStatesAbsorbCharAndEnd :
    terminal (st .DONE 4 0#3 0x00#8 [0xC7#8, 0x10#8]) ∧ terminal (failedAt 0x61#8 2) ∧
    (nextIs (perform .reset (st .DONE 4 0#3 0x00#8 [0xC7#8, 0x10#8])) State.reset = true ∧
      State.reset.st ≠ (st .DONE 4 0#3 0x00#8 [0xC7#8, 0x10#8]).st) ∧
    (nextIs (perform endInput (failedAt 0x61#8 2)) (failedAt 0x61#8 2) = true ∧ opensFrame endInput = false) :=
  ⟨.inl rfl, .inr rfl, ⟨by decide, by decide⟩, by decide, by decide⟩

theorem witness_TransitionTableIsComplete :
    nextIs (exec .bit1 State.reset) (st .OPEN 1 3#3 0x06#8 []) = true ∧
    refusedWith (exec .bit0 (limit 0 State.reset)) .capacityExceeded = true := by decide

theorem witness_OnlyBadCharInOpenRaisesTheError :
    nextIs (perform (charInput 0x61#8) (st .OPEN 2 6#3 0x31#8 [])) (failedAt 0x61#8 2) = true ∧
    decode (Command.char 0x61#8).toWord = .badChar 0x61#8 ∧ (st .OPEN 2 6#3 0x31#8 []).st = .OPEN ∧
    nextIs (perform startInput (failedAt 0x61#8 2)) State.reset = true ∧
    State.reset.errCode ≠ (failedAt 0x61#8 2).errCode := by decide

theorem witness_CapacityRefusesOnlyValidCharacters :
    ((limit 0 State.reset).st = .OPEN ∧ (limit 0 State.reset).cfg.lmax = some (limit 0 State.reset).pos) ∧
    (State.reset.st = .OPEN ∧ State.reset.cfg.lmax = none) := by decide

theorem witness_StepPerformsTheNextInput :
    (withInputs State.reset [.command 0x031#10]).inputs = .command 0x031#10 :: [] ∧
    (withInputs State.reset [.reset, endInput]).inputs = .reset :: [endInput] ∧ State.reset.inputs = [] ∧
    decodeTableWord 16 0x3FF = some (.reserved 0xFF#8) := by decide

theorem witness_StepsTakeOneInputAndKeepParameters :
    nextIs (exec .start (withInputs (failedAt 0x61#8 2) [endInput])) (withInputs State.reset [endInput]) = true ∧
    nextIs (step (withInputs State.reset [endInput, startInput])) (withInputs (st .DONE 0 0#3 0x00#8 []) [startInput])
      = true := by decide

/-- A step that writes a byte, one that empties `OUT`, and one that leaves it. -/
theorem witness_WritesGoToTheNextCellOncePerStep :
    (StateInv (st .OPEN 3 1#3 0x00#8 [0xC7#8]) ∧
      nextIs (perform endInput (st .OPEN 3 1#3 0x00#8 [0xC7#8])) (st .DONE 3 0#3 0x00#8 [0xC7#8, 0x00#8]) = true) ∧
    nextIs (perform (charInput 0x20#8) (st .OPEN 3 1#3 0x00#8 [0xC7#8])) (failedAt 0x20#8 3) = true ∧
    nextIs (perform (charInput 0x31#8) (st .OPEN 3 1#3 0x00#8 [0xC7#8])) (st .OPEN 4 4#3 0x06#8 [0xC7#8]) = true :=
  ⟨⟨open_state_inv, by decide⟩, by decide, by decide⟩

/-- Reads at `LEN - 1` and at `LEN` in DONE, and outside DONE; an input that keeps the buffer. -/
theorem witness_MemReadGivesProducedBytesOnly :
    StateInv (st .DONE 4 0#3 0x00#8 [0xC7#8, 0x10#8]) ∧ 1 < (st .DONE 4 0#3 0x00#8 [0xC7#8, 0x10#8]).len ∧
    (st .DONE 4 0#3 0x00#8 [0xC7#8, 0x10#8]).len ≤ 2 ∧
    (StateInv (failedAt 0x61#8 2) ∧ (failedAt 0x61#8 2).st ≠ .DONE) ∧
    (nextIs (perform endInput (st .DONE 4 0#3 0x00#8 [0xC7#8, 0x10#8])) (st .DONE 4 0#3 0x00#8 [0xC7#8, 0x10#8]) = true ∧
      opensFrame endInput = false) :=
  ⟨done_state_inv, by decide, by decide, ⟨failed_state_inv, by decide⟩, by decide, by decide⟩

theorem witness_ViewFollowsTheFrameState :
    (StateInv (st .OPEN 3 1#3 0x00#8 [0xC7#8]) ∧ (st .OPEN 3 1#3 0x00#8 [0xC7#8]).st = .OPEN) ∧
    (StateInv (st .DONE 4 0#3 0x00#8 [0xC7#8, 0x10#8]) ∧ (st .DONE 4 0#3 0x00#8 [0xC7#8, 0x10#8]).st = .DONE) ∧
    (StateInv (failedAt 0x61#8 2) ∧ (failedAt 0x61#8 2).st = .FAILED) :=
  ⟨⟨open_state_inv, rfl⟩, ⟨done_state_inv, rfl⟩, failed_state_inv, rfl⟩

theorem witness_ReadAccessFollowsTheTable :
    StateInv (st .DONE 4 0#3 0x00#8 [0xC7#8, 0x10#8]) ∧ StateInv (failedAt 0x61#8 2) :=
  ⟨done_state_inv, failed_state_inv⟩

/-- Two strings of different bits and lengths that both fit `LMAX` 2. -/
theorem witness_OpenFrameRevealsNothing :
    ([0x30#8, 0x31#8] : List CharCode).all validChar = true ∧ ([0x31#8] : List CharCode).all validChar = true ∧
    fitsCapacity ⟨some 2⟩ [0x30#8, 0x31#8] ∧ fitsCapacity ⟨some 2⟩ [0x31#8] :=
  ⟨by decide, by decide, by intro l h; cases h; decide, by intro l h; cases h; decide⟩

theorem witness_EveryStepKeepsTheStateInvariant :
    StateInv (resetWith ⟨some 1⟩ [charInput 0x31#8]) ∧
    nextIs (step (resetWith ⟨some 1⟩ [charInput 0x31#8])) (limit 1 (st .OPEN 1 3#3 0x06#8 [])) = true :=
  ⟨reset_state_inv _ _, by decide⟩

/-- After "101" comes a 1. -/
theorem witness_EveryStepKeepsTheStreamInvariant :
    StreamInv [true, false, true] (st .OPEN 3 1#3 0x00#8 [0xC7#8]) ∧
    nextIs (perform (charInput 0x31#8) (st .OPEN 3 1#3 0x00#8 [0xC7#8])) (st .OPEN 4 4#3 0x06#8 [0xC7#8]) = true :=
  ⟨⟨open_state_inv, rfl, fun _ => by decide, fun h => by cases h⟩, by decide⟩

theorem witness_EveryStepKeepsMemoryCanonical :
    (withInputs (st .OPEN 3 1#3 0x00#8 [0xC7#8]) [endInput]).out.wf ∧
    nextIs (step (withInputs (st .OPEN 3 1#3 0x00#8 [0xC7#8]) [endInput])) (st .DONE 3 0#3 0x00#8 [0xC7#8, 0x00#8]) = true := by
  decide

/-- `LMAX` 4 needs 3 bits. -/
theorem witness_PositionRegistersFitTheirWidth :
    StateInv (limit 4 (st .OPEN 4 4#3 0x01#8 [0xC7#8])) ∧ (limit 4 (st .OPEN 4 4#3 0x01#8 [0xC7#8])).cfg.lmax = some 4 ∧
    (limit 4 (st .OPEN 4 4#3 0x01#8 [0xC7#8])).cfg.pw = some 3 :=
  ⟨full_state_inv, rfl, by decide⟩

/-- "10a1" exactly fits `LMAX` 2. -/
theorem witness_FrameComputesEncodeStr :
    fitsCapacity (limit 2 State.reset).cfg (codes ['1', '0', 'a', '1']) ∧ atResetValues (limit 2 State.reset) ∧
    (codes ['1', '0']).all validChar = true ∧ fitsCapacity (limit 2 State.reset).cfg (codes ['1', '0']) :=
  ⟨by intro l h; cases h; decide, ⟨rfl, rfl, rfl, rfl, rfl, rfl, rfl, rfl, rfl⟩, by decide, by intro l h; cases h; decide⟩

/-- Before the invalid character (2 of 4) and after it (3 of 4). -/
theorem witness_ViewBeforeEndIsBusyOrFinal :
    fitsCapacity (limit 2 State.reset).cfg (codes ['1', '0', 'a', '1']) ∧ atResetValues (limit 2 State.reset) ∧
    (2 ≤ (codes ['1', '0', 'a', '1']).length ∧ ((codes ['1', '0', 'a', '1']).take 2).all validChar = true) ∧
    (3 ≤ (codes ['1', '0', 'a', '1']).length ∧ ((codes ['1', '0', 'a', '1']).take 3).all validChar = false) :=
  ⟨by intro l h; cases h; decide, ⟨rfl, rfl, rfl, rfl, rfl, rfl, rfl, rfl, rfl⟩, by decide, by decide⟩

theorem witness_StepsAgreeWithEncode :
    atResetValues (limit 2 State.reset) ∧ ∀ l, (limit 2 State.reset).cfg.lmax = some l → [true, false].length ≤ l :=
  ⟨⟨rfl, rfl, rfl, rfl, rfl, rfl, rfl, rfl, rfl⟩, by intro l h; cases h; decide⟩

/-- Two different states with the same parameters. -/
theorem witness_FramesDependOnTheirCommandsOnly :
    (failedAt 0x61#8 2).cfg = (st .OPEN 3 1#3 0x00#8 [0xC7#8]).cfg ∧
    failedAt 0x61#8 2 ≠ st .OPEN 3 1#3 0x00#8 [0xC7#8] := by decide

/-- A full frame, the next one opened by START, with an invalid character and what follows it. -/
theorem witness_DisciplinedProducerIsNeverRefused :
    disciplined ⟨some 1⟩ (.opened 0)
      [charInput 0x31#8, endInput, startInput, charInput 0x61#8, charInput 0x30#8, endInput, .reset] = true := by decide

theorem witness_SymbolsStandInInputOrder : 1 < [true, false].length ∧ 3 * [true, false].length ≤ 6 := by decide

theorem witness_BytesHoldUnitsMostSignificantFirst :
    [true, true, false, false, false, true, true, true].length = 8 ∧ 1 < (encodeBits [true, false, true]).length := by
  decide

theorem witness_DecodeRecoversTheBits : encodeBits [true, false] = encodeBits [true, false] := rfl

theorem witness_EncodeStrReportsTheFirstInvalid :
    encodeStr (codes ['0', 'b', '1']) = .invalidInputError 0x62#8 1 ∧ (codes ['0', '1']).all validChar = true := by decide

theorem witness_ReturnedPairReproducesTheRate : divisorsFor (rate 9600 candidatesP 1 100) = .next (8, 156) := rfl

/-- Each of the three ends is taken by some call, and a pair at the very tolerance (relative error 1/2) is accepted. -/
theorem witness_FirstFittingCandidateIsReturned :
    divisorsFor (rate 2500 [64, 128] 0 1) = .next (64, 75) ∧
    divisorsFor (rate 24000000 [1] 1 2) = .next (1, 1) ∧
    divisorsFor ⟨2500, 12000000, [32], 1, 255, 0, 0⟩ = .refused .divisorsOutsideDomain ∧
    divisorsFor (rate 2500 [1, 2, 4, 8, 16] 0 1) = .fault .unrepresentableRate ∧
    divisorsFor ⟨2500, 12000000, [32], 0, 255, 0, 1⟩ = .refused .divisorsOutsideDomain := ⟨rfl, rfl, rfl, rfl, rfl⟩

/-- An exact half: `20 / 8`, between 2 and 3. -/
theorem witness_SecondFactorIsRoundedHalfUp :
    (1 : Int) ≤ 1 ∧ (1 : Int) ≤ 20 ∧ (1 : Int) ≤ 8 ∧
    |((20 : Int) : ℚ) / (((8 : Int) : ℚ) * ((1 : Int) : ℚ)) - ((roundedM ⟨1, 20, [8], 1, 255, 0, 1⟩ 8 : Int) : ℚ)| =
      |((20 : Int) : ℚ) / (((8 : Int) : ℚ) * ((1 : Int) : ℚ)) - ((2 : Int) : ℚ)| := by
  have h : roundedM ⟨1, 20, [8], 1, 255, 0, 1⟩ 8 = 3 := rfl
  refine ⟨by decide, by decide, by decide, ?_⟩
  rw [h]
  norm_num [abs_div, abs_of_pos]

theorem witness_ExactRateIsFoundWhenOneExists :
    (rate 1000 candidatesP 0 1).inDomain = true ∧ (rate 1000 candidatesP 0 1).tolNum = 0 ∧
    (rate 2500 candidatesP 0 1).inDomain = true := ⟨rfl, rfl, rfl⟩

theorem witness_ReferenceCaseGives32And150 :
    (32 : Int) ∈ [64, 1, 32] ∧ ([64, 1, 32] : List Int).all isPowerOfTwo = true := ⟨by decide, rfl⟩

/-- Three successes; and two, before a failure of the last request. -/
theorem witness_ApplyIssuesModeThenNThenM :
    ((∀ r ∈ [Reply.success, .success, .success], r = .success) ∧ [Reply.success, .success, .success].length = 3) ∧
    ((∀ r ∈ [Reply.success, .success], r = .success) ∧ [Reply.success, .success].length < 3) := by decide

theorem witness_ChunksReassembleTheBuffer :
    1 ≤ 2 ∧ 2 < (chunksOf 2 [1#8, 2#8, 3#8, 4#8, 5#8]).length := by decide

/-- All three chunks succeed; two do and the last fails. -/
theorem witness_TransmitStopsAtTheFirstFailedChunk :
    1 ≤ 2 ∧
    ([Reply.success, .success, .success].length = (chunksOf 2 [1#8, 2#8, 3#8, 4#8, 5#8]).length ∧
      ∀ r ∈ [Reply.success, .success, .success], r = .success) ∧
    ([Reply.success, .success].length < (chunksOf 2 [1#8, 2#8, 3#8, 4#8, 5#8]).length ∧
      ∀ r ∈ [Reply.success, .success], r = .success) := by decide

theorem witness_InvalidInputTouchesNoDevice :
    fitsCapacity (jobOf ['1', '0', 'a', '1']).cfg (jobOf ['1', '0', 'a', '1']).chars ∧
    encodeStr (jobOf ['1', '0', 'a', '1']).chars = .invalidInputError 0x61#8 2 :=
  ⟨fun _ h => (nomatch h), by decide⟩

theorem witness_NoDataBeforeConfiguration :
    (invoke (jobOf ['1', '0', '1', '0']) (envOf [.success, .success, .success, .success])).events =
      [.lookup ⟨3, 4⟩, .acquire, .request (.configure Config.modeEnableRequest),
        .request (.configure (Config.setNRequest 32)), .request (.configure (Config.setMRequest 150))] ++
      .request (.data ⟨0, [0xC7#8, 0x10#8]⟩) :: [.release] := rfl

/-- A success, and an error after the handle was acquired. -/
theorem witness_HandleIsReleasedOnEveryExit :
    ((∃ b, (invoke (jobOf ['1']) (envOf [.success, .success, .success, .success])).invEnd = .success b) ∧
      .acquire ∈ (invoke (jobOf ['1']) (envOf [.success, .success, .success, .success])).events) ∧
    ((∃ e, (invoke (jobOf ['1']) (envOf [.failure])).invEnd = .error e) ∧
      .acquire ∈ (invoke (jobOf ['1']) (envOf [.failure])).events) :=
  ⟨⟨⟨_, rfl⟩, .tail _ (.head _)⟩, ⟨_, rfl⟩, .tail _ (.head _)⟩

theorem witness_SuccessSendsExactlyTheEncoding :
    (invoke (jobOf ['1']) (envOf [.success, .success, .success, .success])).invEnd = .success [0xC0#8] := rfl

/-- An empty string succeeds with no data request. -/
theorem witness_PhasesFollowTheSessionMachine :
    (invoke (jobOf []) (envOf [.success, .success, .success])).invEnd = .success [] := rfl

/-- The second of three calls hangs: it takes place, and the third does not. -/
theorem witness_InvocationsShareOnlyTheClock :
    (invokeAll [(jobOf [], envOf [.success, .success, .success]), (jobOf ['1'], envOf []), (jobOf [], envOf [])]
      .unconfigured).map Invocation.invEnd = [.success [], .hanging] ∧
    (invokeAll [(jobOf ['a'], envOf []), (jobOf [], envOf [.failure])] .unconfigured).map Invocation.invEnd =
      [.error (.invalidInput 0x61#8 0), .error (.device .deviceConfig)] := ⟨rfl, rfl⟩

/-- Each of the five kinds ends some invocation. -/
theorem witness_EveryErrorHasItsCauseAndContext :
    (invoke (jobOf ['a']) (envOf [])).invEnd = .error (.invalidInput 0x61#8 0) ∧
    (invoke (jobOf []) { envOf [] with attached := [] }).invEnd = .error (.device (.deviceNotFound ⟨3, 4⟩)) ∧
    (invoke { jobOf [] with query := rate 2500 [] 0 1 } (envOf [])).invEnd = .error (.device .unrepresentableRate) ∧
    (invoke (jobOf []) (envOf [.success, .success, .failure])).invEnd = .error (.device .deviceConfig) ∧
    (invoke { jobOf ['1', '0', '1', '0'] with maxChunkSize := 1 }
      (envOf [.success, .success, .success, .success, .failure])).invEnd = .error (.device (.transfer 1)) :=
  ⟨rfl, rfl, rfl, rfl, rfl⟩

end Sys2Proof.Tests
end

/-! Rules for one instruction at a time: what it answers in an open frame, in any other, and whether it answers at all. -/

namespace Sys2Proof.Machine

section equations
variable (c : CharCode) (s : State)

@[simp] theorem exec_bit0 : exec .bit0 s = acceptBit false s := rfl
@[simp] theorem exec_bit1 : exec .bit1 s = acceptBit true s := rfl
@[simp] theorem exec_badChar : exec (.badChar c) s = execBadChar c s := rfl
@[simp] theorem exec_endFrame : exec .endFrame s = execEnd s := rfl
@[simp] theorem exec_start : exec .start s = .next (freshFrame s) := rfl
@[simp] theorem perform_reset : perform .reset s = .next (freshFrame s) := rfl

end equations

theorem atCapacity_eq_false_iff (s : State) : atCapacity s = false ↔ s.cfg.lmax ≠ some s.pos := by
  simp [atCapacity]

section byFrameState
variable {s : State}

theorem acceptBit_of_open (b : LogicalBit) (h : s.st = .OPEN) (room : atCapacity s = false) :
    acceptBit b s = .next { pushUnits (sym b) s with pos := s.pos + 1 } := by
  simp [acceptBit, h, room]

theorem acceptBit_of_not_open (b : LogicalBit) (h : s.st ≠ .OPEN) : acceptBit b s = .next s := by
  cases hst : s.st with
  | OPEN => exact absurd hst h
  | DONE => simp [acceptBit, hst]
  | FAILED => simp [acceptBit, hst]

theorem execBadChar_of_open (c : CharCode) (h : s.st = .OPEN) :
    execBadChar c s = .next (raiseInvalidInput c s.pos s) := by
  simp [execBadChar, h]

theorem execBadChar_of_not_open (c : CharCode) (h : s.st ≠ .OPEN) : execBadChar c s = .next s := by
  cases hst : s.st with
  | OPEN => exact absurd hst h
  | DONE => simp [execBadChar, hst]
  | FAILED => simp [execBadChar, hst]

theorem execEnd_of_open (h : s.st = .OPEN) :
    execEnd s = .next { pushUnits (List.replicate (fillerCount s) false) s with st := .DONE } := by
  simp [execEnd, h]

theorem execEnd_of_not_open (h : s.st ≠ .OPEN) : execEnd s = .next s := by
  cases hst : s.st with
  | OPEN => exact absurd hst h
  | DONE => simp [execEnd, hst]
  | FAILED => simp [execEnd, hst]

end byFrameState

/-- Only the capacity can stop a valid character (70_reset_and_hazards.md R178). -/
theorem acceptBit_answersNext (b : LogicalBit) {s : State} (room : atCapacity s = false) :
    answersNext (acceptBit b s) := by
  by_cases h : s.st = .OPEN
  · exact ⟨_, acceptBit_of_open b h room⟩
  · exact ⟨_, acceptBit_of_not_open b h⟩

theorem execBadChar_answersNext (c : CharCode) (s : State) : answersNext (execBadChar c s) := by
  by_cases h : s.st = .OPEN
  · exact ⟨_, execBadChar_of_open c h⟩
  · exact ⟨_, execBadChar_of_not_open c h⟩

theorem execEnd_answersNext (s : State) : answersNext (execEnd s) := by
  by_cases h : s.st = .OPEN
  · exact ⟨_, execEnd_of_open h⟩
  · exact ⟨_, execEnd_of_not_open h⟩

/-- The instruction of a character command, by the value of its code (30_encoding.md R50, R53). -/
theorem char_toInstr_cases (c : CharCode) :
    (Command.char c).toInstr = .bit0 ∨ (Command.char c).toInstr = .bit1 ∨
      (Command.char c).toInstr = .badChar c := by
  cases h : logicalBit? c with
  | none => exact .inr (.inr (by simp [Command.toInstr, h]))
  | some b =>
    cases b with
    | false => exact .inl (by simp [Command.toInstr, h])
    | true => exact .inr (.inl (by simp [Command.toInstr, h]))

theorem exec_char_answersNext (c : CharCode) {s : State} (room : atCapacity s = false) :
    answersNext (exec (Command.char c).toInstr s) := by
  rcases char_toInstr_cases c with h | h | h <;> rw [h]
  · exact acceptBit_answersNext false room
  · exact acceptBit_answersNext true room
  · exact execBadChar_answersNext c s

/-! ## The reset values (10_state.md R23) -/

theorem freshFrame_atResetValues (s : State) : atResetValues (freshFrame s) :=
  ⟨rfl, rfl, rfl, rfl, rfl, rfl, rfl, rfl, rfl⟩

/-- A frame already at its reset values is left as it is. -/
theorem freshFrame_eq_self {s : State} (h : atResetValues s) : freshFrame s = s := by
  obtain ⟨st, acc, cnt, pos, len, out, errCode, errChar, errPos, cfg, inputs⟩ := s
  obtain ⟨rfl, rfl, rfl, rfl, rfl, rfl, rfl, rfl, rfl⟩ := h
  rfl

/-- A fresh frame has room for a character unless `LMAX` is 0 (R178). -/
theorem atCapacity_of_atResetValues {s : State} (h : atResetValues s) (hl : s.cfg.lmax ≠ some 0) :
    atCapacity s = false := by
  obtain ⟨-, -, -, hpos : s.pos = 0, -⟩ := h
  rwa [atCapacity_eq_false_iff, hpos]

/-- Settles O17: reset and START are both `freshFrame`, which reaches the reset values from every state and leaves a
state that has them; from there END and an invalid character always answer, a valid one when there is room. -/
theorem resetPutsEveryItemAtItsValue : Obligations.ResetPutsEveryItemAtItsValue := by
  refine ⟨⟨rfl, rfl, rfl, rfl, rfl, Memory.read_nil, rfl, rfl, rfl⟩, fun s => ?_, fun s h => ?_⟩
  · exact ⟨by rw [perform_reset, exec_start], _, perform_reset s, freshFrame_atResetValues s⟩
  · exact ⟨by rw [exec_start, freshFrame_eq_self h], execEnd_answersNext s, fun c => execBadChar_answersNext c s,
      fun hl c => exec_char_answersNext c (atCapacity_of_atResetValues h hl)⟩

end Sys2Proof.Machine

/-! What MemRead answers (20_memory.md R37), and an input that cannot open a frame on a frame that is over. -/

namespace Sys2Proof.Machine

section memRead
variable {s : State} {i : Nat}

theorem memRead_of_read {v : Byte} (hst : s.st = .DONE) (hi : i < s.len) (hv : s.out.read i = some v) :
    memRead i s = .value v := by
  simp [memRead, hst, hi, hv]

theorem memRead_refused (h : s.st ≠ .DONE ∨ s.len ≤ i) : memRead i s = .refused .readUnavailable := by
  have closed : ¬(s.st = .DONE ∧ i < s.len) := by
    rintro ⟨hst, hi⟩
    exact h.elim (· hst) (Nat.not_le.mpr hi)
  simp [memRead, closed]

/-- Below `LEN` every cell holds a value (10_state.md R20 I-7). -/
theorem StateInv.read_of_lt (hs : StateInv s) (hi : i < s.len) : ∃ v, s.out.read i = some v :=
  Option.isSome_iff_exists.mp ((hs.cells i).mpr hi)

end memRead

/-- Outside OPEN only START and reset change anything (42_frame_control.md R91, R92). -/
theorem perform_eq_self_of_not_open {x : Input} {s t : State} (hst : s.st ≠ .OPEN) (h : perform x s = .next t)
    (hx : opensFrame x = false) : t = s := by
  rcases perform_next_cases h with ⟨rfl, -⟩ | ⟨w, rfl, hexec⟩
  · cases hx
  · rcases exec_next_cases hexec with ⟨ht, -⟩ | ⟨b, -, ho, -⟩ | ⟨-, ho, -⟩ | ⟨c, -, ho, -⟩ | ⟨hstart, -⟩
    · exact ht
    · exact absurd ho hst
    · exact absurd ho hst
    · exact absurd ho hst
    · simp [opensFrame, hstart] at hx

/-- Settles O25: I-7 gives every cell below `LEN` in DONE its value, and in DONE an input that opens no frame leaves the
whole state. -/
theorem memReadGivesProducedBytesOnly : Obligations.MemReadGivesProducedBytesOnly := by
  refine fun s hs => ⟨fun i hst hi => ?_, fun i => memRead_refused, fun x t i hst h hx => ?_⟩
  · obtain ⟨v, hv⟩ := hs.read_of_lt hi
    exact ⟨v, hv, memRead_of_read hst hi hv⟩
  · have hopen : s.st ≠ .OPEN := by simp [hst]
    rw [perform_eq_self_of_not_open hopen h hx]

end Sys2Proof.Machine

/-! The byte of 8 units (20_memory.md R33) and the bytes of a packed stream (R31, 30_encoding.md R55). -/

namespace Sys2Proof.Machine

theorem unitAt_le_one (w : List LineUnit) (k : Nat) : unitAt w k ≤ 1 := Bool.toNat_le _

/-- The sum of the weights fits 8 bits, so the byte is that number. -/
theorem byteOf_toNat (w : List LineUnit) :
    (byteOf w).toNat = unitAt w 0 * 128 + unitAt w 1 * 64 + unitAt w 2 * 32 + unitAt w 3 * 16 + unitAt w 4 * 8
      + unitAt w 5 * 4 + unitAt w 6 * 2 + unitAt w 7 := by
  have le_one := unitAt_le_one w
  rw [byteOf, BitVec.toNat_ofNat]
  apply Nat.mod_eq_of_lt
  linarith [le_one 0, le_one 1, le_one 2, le_one 3, le_one 4, le_one 5, le_one 6, le_one 7]

/-- The weighted sum built one binary digit at a time: the first unit enters first and ends as the highest digit. -/
theorem byteOf_toNat_bits (a b c d e f g h : LineUnit) :
    (byteOf [a, b, c, d, e, f, g, h]).toNat =
      Nat.bit h (Nat.bit g (Nat.bit f (Nat.bit e (Nat.bit d (Nat.bit c (Nat.bit b (Nat.bit a 0))))))) := by
  simp only [byteOf_toNat, unitAt, Nat.bit_val, List.getD_cons_zero, List.getD_cons_succ]
  omega

/-- Unpacking a byte gives back the 8 units it was packed from, in their order. -/
theorem unitsOfByte_byteOf {w : List LineUnit} (hw : w.length = 8) : unitsOfByte (byteOf w) = w := by
  match w, hw with
  | [a, b, c, d, e, f, g, h], _ =>
    simp [unitsOfByte, BitVec.getLsbD, byteOf_toNat_bits, Nat.testBit_bit_succ]

section pack
variable (u : List LineUnit)

@[simp] theorem pack_length : (pack u).length = u.length / 8 := by simp [pack]

theorem pack_getElem (i : Nat) (h : i < (pack u).length) : (pack u)[i] = byteOf ((u.drop (8 * i)).take 8) := by
  simp [pack]

/-- Byte `i` of a packed stream holds its units `8i` to `8i+7`: all 8 are there because the byte is full. -/
theorem unitsOfByte_pack_getElem (i : Nat) (h : i < (pack u).length) :
    unitsOfByte (pack u)[i] = (u.drop (8 * i)).take 8 := by
  have full : ((u.drop (8 * i)).take 8).length = 8 := by
    rw [pack_length] at h
    rw [List.length_take, List.length_drop]
    omega
  rw [pack_getElem, unitsOfByte_byteOf full]

end pack

/-- Settles O41: a byte is the weighted sum of its 8 units and unpacks to them, and packing takes the padded stream 8
units at a time. -/
theorem bytesHoldUnitsMostSignificantFirst : Obligations.BytesHoldUnitsMostSignificantFirst :=
  ⟨fun w hw => ⟨unitsOfByte_byteOf hw, byteOf_toNat w⟩, fun bits => unitsOfByte_pack_getElem (symbolStream bits)⟩

end Sys2Proof.Machine

/-! The fields of a command word (30_encoding.md R51) and what `decode` answers by the kind (R56). -/

namespace Sys2Proof.Machine

/-! ## A word and its two fields -/

section fields
variable (kind : BitVec 2) (ch : BitVec 8) (w : CmdWord)

@[simp] theorem kindField_joinFields : kindField (joinFields kind ch) = kind := BitVec.extractLsb'_append_eq_left

@[simp] theorem chField_joinFields : chField (joinFields kind ch) = ch := BitVec.extractLsb'_append_eq_right

@[simp] theorem joinFields_kindField_chField : joinFields (kindField w) (chField w) = w :=
  BitVec.extractLsb'_append_extractLsb'

theorem joinFields_eq_iff : joinFields kind ch = w ↔ kind = kindField w ∧ ch = chField w := by
  constructor
  · rintro rfl
    simp
  · rintro ⟨rfl, rfl⟩
    simp

theorem kindField_eq_iff : kindField w = kind ↔ w.toNat / 256 = kind.toNat := by
  rw [← BitVec.toNat_inj, kindField, BitVec.extractLsb'_toNat, Nat.shiftRight_eq_div_pow]
  omega

theorem kind_cases : kind = 0b00#2 ∨ kind = 0b01#2 ∨ kind = 0b10#2 ∨ kind = 0b11#2 := by
  decide +revert

end fields

/-! ## The decoder by the kind of the word -/

section decoder
variable (ch : BitVec 8)

theorem char_toInstr_eq :
    (Command.char ch).toInstr = if ch = 0x30#8 then .bit0 else if ch = 0x31#8 then .bit1 else .badChar ch := by
  rw [Command.toInstr, logicalBit?]
  split_ifs <;> rfl

@[simp] theorem decode_charWord : decode (joinFields 0b00#2 ch) = (Command.char ch).toInstr := by
  have hzero : joinFields 0b00#2 ch = 0x030#10 ↔ ch = 0x30#8 := (joinFields_eq_iff ..).trans (and_iff_right rfl)
  have hone : joinFields 0b00#2 ch = 0x031#10 ↔ ch = 0x31#8 := (joinFields_eq_iff ..).trans (and_iff_right rfl)
  simp [decode, char_toInstr_eq, hzero, hone]

/-- The two valid characters are words of kind 0, so a word of another kind decodes by its kind alone. -/
theorem decode_of_kind_ne_zero {kind : BitVec 2} (hk : kind ≠ 0b00#2) :
    decode (joinFields kind ch) =
      if kind = 0b01#2 then .endFrame else if kind = 0b10#2 then .start else .reserved ch := by
  have hzero : joinFields kind ch ≠ 0x030#10 := fun h => hk ((joinFields_eq_iff ..).mp h).1
  have hone : joinFields kind ch ≠ 0x031#10 := fun h => hk ((joinFields_eq_iff ..).mp h).1
  simp [decode, hzero, hone, hk]

@[simp] theorem decode_endWord : decode (joinFields 0b01#2 ch) = .endFrame := by
  simp [decode_of_kind_ne_zero]

@[simp] theorem decode_startWord : decode (joinFields 0b10#2 ch) = .start := by
  simp [decode_of_kind_ne_zero]

@[simp] theorem decode_reservedWord : decode (joinFields 0b11#2 ch) = .reserved ch := by
  simp [decode_of_kind_ne_zero]

end decoder

/-- Every word is a word of one of the four kinds. -/
theorem exists_joinFields (w : CmdWord) :
    ∃ ch, w = joinFields 0b00#2 ch ∨ w = joinFields 0b01#2 ch ∨ w = joinFields 0b10#2 ch ∨
      w = joinFields 0b11#2 ch := by
  refine ⟨chField w, ?_⟩
  rcases kind_cases (kindField w) with h | h | h | h <;> rw [← h] <;> simp

theorem decode_toWord (k : Command) : decode k.toWord = k.toInstr := by
  cases k with
  | start => exact decode_startWord _
  | char c => exact decode_charWord c
  | endFrame => exact decode_endWord _

/-- The word of kind `0b00` to `0b10` is a command's, up to the `ch` of END and START. -/
theorem exists_command_of_kind_ne_reserved {w : CmdWord} (hw : kindField w ≠ 0b11#2) :
    ∃ k : Command, decode w = k.toInstr := by
  obtain ⟨ch, rfl | rfl | rfl | rfl⟩ := exists_joinFields w
  · exact ⟨.char ch, decode_charWord ch⟩
  · exact ⟨.endFrame, decode_endWord ch⟩
  · exact ⟨.start, decode_startWord ch⟩
  · exact absurd (kindField_joinFields ..) hw

/-- Settles O4: `decode` and `Command.toInstr` agree on each command's word, and every word of the first three kinds is
one, up to the ignored `ch`. -/
theorem commandsDecodeByTheirCharacter : Obligations.CommandsDecodeByTheirCharacter :=
  ⟨decode_toWord, fun c => (decode_toWord (.char c)).trans (char_toInstr_eq c),
    fun _ => exists_command_of_kind_ne_reserved⟩

@[simp] theorem perform_command (w : CmdWord) (s : State) : perform (.command w) s = exec (decode w) s := rfl

@[simp] theorem exec_reserved (ch : BitVec 8) (s : State) :
    exec (.reserved ch) s = .refused (.reservedCommand ch) := rfl

/-- Settles O5: the decoder reads the kind of these words and nothing else of them. -/
theorem endAndStartIgnoreTheirCharField : Obligations.EndAndStartIgnoreTheirCharField :=
  fun ch s => ⟨decode_endWord ch, decode_startWord ch, by rw [perform_command, decode_endWord],
    by rw [perform_command, decode_startWord]⟩

/-- The reserved quarter is the top one: only a word of kind `0b11` decodes to RESERVED (30_encoding.md R58). -/
theorem decode_eq_reserved_iff (w : CmdWord) : decode w = .reserved (chField w) ↔ kindField w = 0b11#2 := by
  obtain ⟨ch, rfl | rfl | rfl | rfl⟩ := exists_joinFields w
  · rcases char_toInstr_cases ch with h | h | h <;> simp [h]
  · simp
  · simp
  · simp

theorem reservedNumber_iff (w : CmdWord) : 0x300 ≤ w.toNat ↔ decode w = .reserved (chField w) := by
  rw [decode_eq_reserved_iff, kindField_eq_iff, show (0b11#2).toNat = 3 from rfl]
  omega

/-- Settles O6: a number from `0x300` up is a word of kind `0b11`, and RESERVED has a refusal for its only answer. -/
theorem reservedWordsAreRefused : Obligations.ReservedWordsAreRefused := by
  refine ⟨reservedNumber_iff, fun w s hw => ?_, exec_reserved⟩
  rw [perform_command, (reservedNumber_iff w).mp hw, exec_reserved]

end Sys2Proof.Machine

/-! The opcode table by numbers (30_encoding.md R56): each mask selects the high bits of a word, so a row, or one of the
seven patterns in place of the BADCHAR row, matches the words whose number lies in one interval. -/

namespace Sys2Proof.Machine

/-! ## Patterns that fix the high bits -/

/-- The pattern (match, mask) of the words whose number without its low `j` bits is `p`. -/
def highBitsPattern (j p : Nat) : CmdWord × CmdWord := (BitVec.ofNat 10 p <<< j, BitVec.allOnes 10 <<< j)

/-- The row of the opcode table whose match and mask are `highBitsPattern j p`. -/
def highBitsRow (m : Mnemonic) (j p : Nat) (exclude : List CmdWord) : OpcodeRow :=
  ⟨m, (highBitsPattern j p).1, (highBitsPattern j p).2, exclude⟩

theorem opcodeRows_eq : opcodeRows =
    [highBitsRow .BIT0 0 0x30 [], highBitsRow .BIT1 0 0x31 [], highBitsRow .BADCHAR 8 0 [0x030#10, 0x031#10],
      highBitsRow .END 8 1 [], highBitsRow .START 8 2 [], highBitsRow .RESERVED 8 3 []] := by decide

theorem badCharPatterns_eq : badCharPatterns =
    [highBitsPattern 7 1, highBitsPattern 6 1, highBitsPattern 5 0, highBitsPattern 4 2, highBitsPattern 3 7,
      highBitsPattern 2 13, highBitsPattern 1 25] := by decide

section pattern
variable (w : CmdWord) {j p : Nat} (m : Mnemonic) (ex : List CmdWord)

theorem highBitsPattern_matches (h : p * 2 ^ j < 1024) :
    ((w &&& (highBitsPattern j p).2) == (highBitsPattern j p).1) = decide (w.toNat / 2 ^ j = p) := by
  have hw : w.toNat / 2 ^ j * 2 ^ j < 1024 := (Nat.div_mul_le_self ..).trans_lt w.isLt
  have hp : p < 1024 := (Nat.le_mul_of_pos_right p (Nat.two_pow_pos j)).trans_lt h
  rw [Bool.eq_iff_iff, beq_iff_eq, decide_eq_true_iff, highBitsPattern, ← BitVec.shiftLeft_ushiftRight,
    ← BitVec.toNat_inj]
  simp [Nat.shiftLeft_eq, Nat.shiftRight_eq_div_pow, Nat.mod_eq_of_lt, hw, hp, h]

@[simp] theorem highBitsRow_hits (h : p * 2 ^ j < 1024) :
    (highBitsRow m j p ex).hits w = decide (w.toNat / 2 ^ j = p) := highBitsPattern_matches w h

@[simp] theorem highBitsRow_mnemonic : (highBitsRow m j p ex).mnemonic = m := rfl

@[simp] theorem highBitsRow_exclude : (highBitsRow m j p ex).exclude = ex := rfl

end pattern

/-! ## The mnemonic of a word by its number -/

/-- The mnemonic of the word with number `n`, for `n < 1024`. -/
def numberMnemonic (n : Nat) : Mnemonic :=
  if n = 0x30 then .BIT0
  else if n = 0x31 then .BIT1
  else if n < 0x100 then .BADCHAR
  else if n / 0x100 = 1 then .END
  else if n / 0x100 = 2 then .START
  else .RESERVED

theorem decode_mnemonic (w : CmdWord) : (decode w).mnemonic = numberMnemonic w.toNat := by
  simp only [decode, kindField_eq_iff, ← BitVec.toNat_inj (x := w)]
  fun_cases numberMnemonic w.toNat <;> simp [*, Instr.mnemonic]

theorem tableMnemonic_eq (w : CmdWord) : tableMnemonic w = some (decode w).mnemonic := by
  simp only [decode_mnemonic, tableMnemonic, opcodeRows_eq]
  fun_cases numberMnemonic w.toNat
  case case6 =>
    have last : w.toNat / 256 = 3 := by
      have := w.isLt
      omega
    simp [*]
  all_goals simp [*]

/-- Without regard to order the row of a word is the one of its mnemonic, and no other. -/
theorem hitsAlone_eq (w : CmdWord) :
    ∀ r ∈ opcodeRows, r.hitsAlone w = decide (r.mnemonic = (decode w).mnemonic) := by
  have lt := w.isLt
  simp only [decode_mnemonic, opcodeRows_eq, List.forall_mem_cons, OpcodeRow.hitsAlone]
  fun_cases numberMnemonic w.toNat <;> simp [*, ← BitVec.toNat_inj] <;> omega

theorem mnemonics_of_rows_hitsAlone (w : CmdWord) :
    (opcodeRows.filter (fun r => r.hitsAlone w)).map OpcodeRow.mnemonic = [(decode w).mnemonic] := by
  rw [List.filter_congr (hitsAlone_eq w)]
  cases (decode w).mnemonic <;> rfl

theorem quarterRows_hit_once (w : CmdWord) : ((opcodeRows.drop 2).filter (fun r => r.hits w)).length = 1 := by
  have quarter : w.toNat / 256 = 0 ∨ w.toNat / 256 = 1 ∨ w.toNat / 256 = 2 ∨ w.toNat / 256 = 3 := by
    have := w.isLt
    omega
  rw [opcodeRows_eq]
  rcases quarter with h | h | h | h <;> simp [h, -Nat.div_eq_zero_iff]

/-- The seven intervals are disjoint, and leave out of the numbers below `0x100` only the two valid codes. -/
theorem badCharPatterns_match_once (w : CmdWord) :
    (badCharPatterns.filter (fun p => (w &&& p.2) == p.1)).length =
      if (decode w).mnemonic = .BADCHAR then 1 else 0 := by
  rw [badCharPatterns_eq, ← List.countP_eq_length_filter, decode_mnemonic]
  simp only [List.countP_cons, List.countP_nil, highBitsPattern_matches, Nat.reducePow, Nat.reduceMul, Nat.reduceLT,
    decide_eq_true_eq]
  fun_cases numberMnemonic w.toNat
  case case3 => grind
  all_goals simp [*]
  all_goals omega

theorem decode_badChar_eq_chField {w : CmdWord} {c : CharCode} (h : decode w = .badChar c) : c = chField w := by
  obtain ⟨ch, rfl | rfl | rfl | rfl⟩ := exists_joinFields w
  · rcases char_toInstr_cases ch with hi | hi | hi <;> simp_all
  · cases (decode_endWord ch).symm.trans h
  · cases (decode_startWord ch).symm.trans h
  · cases (decode_reservedWord ch).symm.trans h

/-! ## The counts of words -/

/-- How many of the words with a number below `k` have the mnemonic `m`. -/
def mnemonicCount (m : Mnemonic) (k : Nat) : Nat := (List.range k).countP fun n => numberMnemonic n = m

/-- A run of `k` numbers with one mnemonic counts `k` for it and nothing for any other. -/
theorem mnemonicCount_add_run (m v : Mnemonic) (a k : Nat) (h : ∀ n, a ≤ n → n < a + k → numberMnemonic n = v) :
    mnemonicCount m (a + k) = mnemonicCount m a + if v = m then k else 0 := by
  have run : ∀ n ∈ List.range k, numberMnemonic (a + n) = v := fun n hn =>
    h (a + n) (Nat.le_add_right ..) (Nat.add_lt_add_left (List.mem_range.mp hn) a)
  rw [mnemonicCount, List.range_add, List.countP_append, List.countP_map, ← mnemonicCount]
  congr 1
  split_ifs with hv
  · rw [List.countP_eq_length.mpr (fun n hn => by simp [run n hn, hv]), List.length_range]
  · exact List.countP_eq_zero.mpr (fun n hn => by simp [run n hn, hv])

/-- The word space from the top down, one run of equal mnemonics at a time. -/
theorem mnemonicCount_all (m : Mnemonic) :
    mnemonicCount m 1024 =
      0 + (if .BADCHAR = m then 48 else 0) + (if .BIT0 = m then 1 else 0) + (if .BIT1 = m then 1 else 0)
        + (if .BADCHAR = m then 206 else 0) + (if .END = m then 256 else 0) + (if .START = m then 256 else 0)
        + (if .RESERVED = m then 256 else 0) := by
  rw [mnemonicCount_add_run m .RESERVED 768 256 (by grind [numberMnemonic]),
    mnemonicCount_add_run m .START 512 256 (by grind [numberMnemonic]),
    mnemonicCount_add_run m .END 256 256 (by grind [numberMnemonic]),
    mnemonicCount_add_run m .BADCHAR 50 206 (by grind [numberMnemonic]),
    mnemonicCount_add_run m .BIT1 49 1 (by grind [numberMnemonic]),
    mnemonicCount_add_run m .BIT0 48 1 (by grind [numberMnemonic]),
    mnemonicCount_add_run m .BADCHAR 0 48 (by grind [numberMnemonic])]
  rfl

theorem countP_decode_mnemonic (m : Mnemonic) :
    ((List.range 1024).countP fun n => (decode (BitVec.ofNat 10 n)).mnemonic = m) = mnemonicCount m 1024 := by
  refine List.countP_congr fun n hn => ?_
  rw [decode_mnemonic, BitVec.toNat_ofNat, Nat.mod_eq_of_lt (List.mem_range.mp hn)]

/-- Settles O2: on the numbers of the words the table, the seven patterns and the decoder are the same intervals, whose
lengths are the counts. -/
theorem decodingFollowsTheOpcodeMap : Obligations.DecodingFollowsTheOpcodeMap := by
  refine ⟨tableMnemonic_eq, mnemonics_of_rows_hitsAlone, quarterRows_hit_once, fun _ _ => decode_badChar_eq_chField,
    badCharPatterns_match_once, fun m => ?_⟩
  rw [countP_decode_mnemonic, mnemonicCount_all]
  cases m <;> rfl

end Sys2Proof.Machine

/-! Runs of `push_unit` that complete at most one byte, and BIT0, BIT1 and BADCHAR (40_symbol_map.md R70 to R73). -/

namespace Sys2Proof.Machine

/-! ## Several units at once (41_byte_packer.md R80) -/

/-- `CNT` does not wrap while a unit is still missing (10_state.md R13). -/
theorem cnt_succ_toNat {c : BitVec 3} (h : c.toNat ≠ 7) : (BitVec.ofNat 3 (c.toNat + 1)).toNat = c.toNat + 1 := by
  rw [BitVec.toNat_ofNat]
  omega

/-- Units that complete no byte are all shifted into `ACC`. -/
theorem pushUnits_pending (us : List LineUnit) (s : State) (h : s.cnt.toNat + us.length < 8) :
    pushUnits us s = { s with acc := us.foldl shiftIn s.acc, cnt := BitVec.ofNat 3 (s.cnt.toNat + us.length) } := by
  induction us generalizing s with
  | nil => simp
  | cons u us ih =>
    rw [List.length_cons] at h
    have h7 : s.cnt.toNat ≠ 7 := by omega
    rw [pushUnits_cons, pushUnit_pending h7, ih _ (by rw [cnt_succ_toNat h7]; omega)]
    simp only [cnt_succ_toNat h7, List.foldl_cons, List.length_cons, Nat.add_assoc, Nat.add_comm 1]

/-- Units that complete one byte: the first `n` of them fill it, the others are shifted into an empty `ACC`. -/
theorem pushUnits_completing (us : List LineUnit) (s : State) {n : Nat} (hn : s.cnt.toNat + n = 8)
    (hle : n ≤ us.length) (hlt : us.length < n + 8) :
    pushUnits us s =
      { s with
        out := s.out.write s.len ((us.take n).foldl shiftIn s.acc), len := s.len + 1,
        acc := (us.drop n).foldl shiftIn 0#8, cnt := BitVec.ofNat 3 (us.length - n) } := by
  have hcnt := s.cnt.isLt
  induction us generalizing s n with
  | nil =>
    rw [List.length_nil] at hle
    omega
  | cons u us ih =>
    rw [List.length_cons] at hle hlt
    rw [pushUnits_cons]
    by_cases h7 : s.cnt.toNat = 7
    · obtain rfl : n = 1 := by omega
      rw [pushUnit_eighth h7, pushUnits_pending _ _ (by simp; omega)]
      simp
    · obtain ⟨m, rfl⟩ : ∃ m, n = m + 1 := ⟨n - 1, by omega⟩
      rw [pushUnit_pending h7, ih (n := m) _ (by rw [cnt_succ_toNat h7]; omega) (by omega) (by omega) (BitVec.isLt _)]
      simp

/-! ## The closed form of a symbol (40_symbol_map.md R73), by numbers -/

theorem shiftIn_eq_shiftConcat (acc : BitVec 8) (u : LineUnit) : shiftIn acc u = acc.shiftConcat u := by
  ext i hi
  cases u <;> cases i <;> simp [shiftIn, unitBit, BitVec.getElem_shiftConcat, BitVec.getElem_one]

theorem shiftIn_toNat (acc : BitVec 8) (u : LineUnit) :
    (shiftIn acc u).toNat = (2 * acc.toNat + u.toNat) % 256 := by
  rw [shiftIn_eq_shiftConcat, BitVec.toNat_shiftConcat, Nat.shiftLeft_eq, Nat.mul_comm]

section symbol
variable (b : LogicalBit) (s : State)

theorem symbolAppended_eq_append : symbolAppended b s = s.acc ++ symNumber b := by
  rw [BitVec.append_def, BitVec.shiftLeftZeroExtend_eq, BitVec.setWidth'_eq]
  rfl

theorem symbolAppended_toNat : (symbolAppended b s).toNat = 8 * s.acc.toNat + (symNumber b).toNat := by
  rw [symbolAppended_eq_append, BitVec.toNat_append, ← Nat.shiftLeft_add_eq_or_of_lt (symNumber b).isLt,
    Nat.shiftLeft_eq, Nat.mul_comm]

theorem symbolAppended_low_toNat {r : Nat} (hr : r ≤ 11) :
    (symbolAppended b s &&& BitVec.ofNat 11 (2 ^ r - 1)).toNat = (symbolAppended b s).toNat % 2 ^ r := by
  have hlt : 2 ^ r - 1 < 2 ^ 11 :=
    (Nat.sub_lt (Nat.two_pow_pos r) one_pos).trans_le (Nat.pow_le_pow_right two_pos hr)
  rw [BitVec.toNat_and, BitVec.toNat_ofNat, Nat.mod_eq_of_lt hlt, Nat.and_two_pow_sub_one_eq_mod]

/-- `V` without its low `r` bits: all units of the symbol but the last `r`, shifted into `ACC`. -/
theorem foldl_shiftIn_sym_take {r : Nat} (hr : r ≤ 2) :
    ((sym b).take (3 - r)).foldl shiftIn s.acc = (symbolAppended b s >>> r).setWidth 8 := by
  rw [← BitVec.toNat_inj, BitVec.toNat_setWidth, BitVec.toNat_ushiftRight, symbolAppended_toNat,
    Nat.shiftRight_eq_div_pow]
  interval_cases r <;> cases b <;> simp [sym, symNumber, shiftIn_toNat] <;> omega

/-- The low `r` bits of `V`: the last `r` units of the symbol, shifted into an empty `ACC`. -/
theorem foldl_shiftIn_sym_drop {r : Nat} (hr : r ≤ 2) :
    ((sym b).drop (3 - r)).foldl shiftIn 0#8 =
      (symbolAppended b s &&& BitVec.ofNat 11 (2 ^ r - 1)).setWidth 8 := by
  rw [← BitVec.toNat_inj, BitVec.toNat_setWidth, symbolAppended_low_toNat b s (by omega), symbolAppended_toNat]
  interval_cases r <;> cases b <;> simp [sym, symNumber, shiftIn_toNat] <;> omega

theorem sym_length : (sym b).length = 3 := by cases b <;> rfl

/-- The three `push_unit` calls of R70 and R71 come to the closed form of R73. -/
theorem pushUnits_sym_eq_closed : { pushUnits (sym b) s with pos := s.pos + 1 } = acceptBitClosed b s := by
  have hcnt := s.cnt.isLt
  rw [acceptBitClosed]
  split_ifs with h
  · have hacc := foldl_shiftIn_sym_take b s (Nat.zero_le 2)
    rw [Nat.sub_zero, List.take_of_length_le (sym_length b).le, BitVec.ushiftRight_zero] at hacc
    rw [pushUnits_pending _ _ (by rwa [sym_length]), hacc, sym_length]
  · have hr : s.cnt.toNat + 3 - 8 ≤ 2 := by omega
    rw [pushUnits_completing _ _ (n := 3 - (s.cnt.toNat + 3 - 8)) (by omega) (by rw [sym_length]; omega)
        (by rw [sym_length]; omega),
      foldl_shiftIn_sym_take b s hr, foldl_shiftIn_sym_drop b s hr, sym_length, Nat.sub_sub_self (by omega)]

/-- A byte is written exactly when `CNT` is 5, 6 or 7. -/
theorem acceptBitClosed_len : (acceptBitClosed b s).len = s.len + if 5 ≤ s.cnt.toNat then 1 else 0 := by
  rw [acceptBitClosed]
  by_cases h : 5 ≤ s.cnt.toNat
  · rw [if_neg (by omega), if_pos h]
  · simp [h, show s.cnt.toNat + 3 < 8 by omega]

end symbol

/-! ## The three instructions of the symbol map (R70 to R72) -/

theorem acceptBit_of_full (b : LogicalBit) {s : State} (h : s.st = .OPEN) (full : s.cfg.lmax = some s.pos) :
    acceptBit b s = .refused .capacityExceeded := by
  simp [acceptBit, h, atCapacity, full]

theorem terminal.not_open {s : State} (h : terminal s) : s.st ≠ .OPEN := by
  rcases h with h | h <;> simp [h]

/-- What a valid character does in every state, for both logical bits. -/
theorem acceptBit_byFrameState (b : LogicalBit) (s : State) :
    (s.st = .OPEN → s.cfg.lmax ≠ some s.pos →
      acceptBit b s = .next { pushUnits (sym b) s with pos := s.pos + 1 } ∧
      acceptBit b s = .next (acceptBitClosed b s) ∧
      (acceptBitClosed b s).len = s.len + (if 5 ≤ s.cnt.toNat then 1 else 0)) ∧
    (s.st = .OPEN → s.cfg.lmax = some s.pos → acceptBit b s = .refused .capacityExceeded) ∧
    (terminal s → acceptBit b s = .next s) := by
  refine ⟨fun hopen room => ?_, acceptBit_of_full b, fun h => acceptBit_of_not_open b h.not_open⟩
  have hpush := acceptBit_of_open b hopen ((atCapacity_eq_false_iff s).mpr room)
  exact ⟨hpush, by rw [hpush, pushUnits_sym_eq_closed], acceptBitClosed_len b s⟩

/-- Settles O8: the shared rule of a valid character for the logical bit 0, whose symbol is `001`. -/
theorem bit0EmitsSymbol001 : Obligations.Bit0EmitsSymbol001 := ⟨rfl, acceptBit_byFrameState false⟩

/-- Settles O9: the shared rule of a valid character for the logical bit 1, whose symbol is `110`. -/
theorem bit1EmitsSymbol110 : Obligations.Bit1EmitsSymbol110 := ⟨rfl, acceptBit_byFrameState true⟩

/-- Settles O10: a character word of any other code is BADCHAR, and BADCHAR never asks for the capacity. -/
theorem badCharFailsTheFrame : Obligations.BadCharFailsTheFrame := by
  refine ⟨fun c hzero hone => ?_, fun c s => ⟨execBadChar_of_open c, fun h => ?_⟩⟩
  · rw [decode_charWord, char_toInstr_eq, if_neg hzero, if_neg hone]
  · exact execBadChar_of_not_open c (terminal.not_open h)

end Sys2Proof.Machine

/-! The byte packer: one `push_unit`, the filler units and END (41_byte_packer.md R80, R81, R84). -/

namespace Sys2Proof.Machine

/-! ## One unit (R80) -/

/-- The 8-bit shift discards no 1 while a unit is still missing. -/
theorem shiftIn_toNat_of_lt {acc : BitVec 8} {n : Nat} (u : LineUnit) (hacc : acc.toNat < 2 ^ n) (hn : n ≤ 7) :
    (shiftIn acc u).toNat = 2 * acc.toNat + u.toNat := by
  have hpow : 2 ^ n ≤ 2 ^ 7 := Nat.pow_le_pow_right two_pos hn
  have hu := u.toNat_le
  rw [shiftIn_toNat, Nat.mod_eq_of_lt (by omega)]

/-- A unit more in `ACC` needs at most one binary digit more (10_state.md R20 I-1). -/
theorem shiftIn_lt_two_pow_succ {acc : BitVec 8} {n : Nat} (u : LineUnit) (hacc : acc.toNat < 2 ^ n) (hn : n ≤ 7) :
    (shiftIn acc u).toNat < 2 ^ (n + 1) := by
  have hu := u.toNat_le
  rw [shiftIn_toNat_of_lt u hacc hn, Nat.pow_succ]
  omega

/-- Settles O12: the two branches of `push_unit`, with the value of `shiftIn` when `ACC` holds only pending units. -/
theorem pushUnitShiftsAndWritesTheEighth : Obligations.PushUnitShiftsAndWritesTheEighth := by
  refine fun u s => ⟨fun hlt => ?_, fun h7 => ?_⟩
  · have hcnt := cnt_succ_toNat hlt.ne
    refine ⟨_, _, pushUnit_pending hlt.ne, hcnt, fun hacc => ⟨shiftIn_toNat_of_lt u hacc hlt.le, ?_⟩, rfl⟩
    rw [hcnt]
    exact shiftIn_lt_two_pow_succ u hacc hlt.le
  · exact ⟨_, pushUnit_eighth h7, fun hacc => shiftIn_toNat_of_lt u hacc h7.le, rfl⟩

/-! ## The filler units and the closed form of END (R81, R84) -/

theorem foldl_shiftIn_replicate_false (n : Nat) (acc : BitVec 8) :
    (List.replicate n false).foldl shiftIn acc = acc <<< n := by
  induction n generalizing acc with
  | zero => simp
  | succ n ih =>
    have hshift : shiftIn acc false = acc <<< 1 := by simp [shiftIn, unitBit]
    rw [List.replicate_succ, List.foldl_cons, ih, hshift, ← BitVec.shiftLeft_add, Nat.add_comm]

section filler
variable {s : State}

theorem fillerCount_of_cnt_zero (h : s.cnt.toNat = 0) : fillerCount s = 0 := by
  rw [fillerCount, h]

theorem fillerCount_of_pending (h : s.cnt.toNat ≠ 0) : fillerCount s = 8 - s.cnt.toNat := by
  rw [fillerCount]
  omega

theorem fillerCount_eq_zero_iff : fillerCount s = 0 ↔ s.cnt.toNat = 0 := by
  have hcnt := s.cnt.isLt
  rw [fillerCount]
  omega

theorem fillerCount_le_seven (s : State) : fillerCount s ≤ 7 := Nat.le_of_lt_succ (Nat.mod_lt _ (by decide))

theorem endClosed_of_cnt_zero (h : s.cnt.toNat = 0) : endClosed s = { s with st := .DONE } := if_pos h

theorem endClosed_of_pending (h : s.cnt.toNat ≠ 0) :
    endClosed s =
      { s with
        out := s.out.write s.len (s.acc <<< fillerCount s), len := s.len + 1, acc := 0#8, cnt := 0#3,
        st := .DONE } := by
  rw [fillerCount_of_pending h]
  exact if_neg h

@[simp] theorem endClosed_st (s : State) : (endClosed s).st = .DONE := by
  by_cases h : s.cnt.toNat = 0
  · rw [endClosed_of_cnt_zero h]
  · rw [endClosed_of_pending h]

/-- With a unit pending, the filler units complete exactly one byte. -/
theorem pushUnits_filler_of_pending (h : s.cnt.toNat ≠ 0) :
    pushUnits (List.replicate (fillerCount s) false) s =
      { s with
        out := s.out.write s.len (s.acc <<< fillerCount s), len := s.len + 1, acc := 0#8, cnt := 0#3 } := by
  have hfill : s.cnt.toNat + fillerCount s = 8 := by
    have hcnt := s.cnt.isLt
    rw [fillerCount_of_pending h]
    omega
  rw [pushUnits_completing _ s hfill (by simp) (by simp)]
  simp [foldl_shiftIn_replicate_false]

/-- The `push_unit(0)` calls of END come to the closed form of R84. -/
theorem pushUnits_filler_eq_closed (s : State) :
    { pushUnits (List.replicate (fillerCount s) false) s with st := .DONE } = endClosed s := by
  by_cases h : s.cnt.toNat = 0
  · rw [fillerCount_of_cnt_zero h, List.replicate_zero, pushUnits_nil, endClosed_of_cnt_zero h]
  · rw [pushUnits_filler_of_pending h, endClosed_of_pending h]

theorem execEnd_eq_closed (hopen : s.st = .OPEN) : execEnd s = .next (endClosed s) := by
  rw [execEnd_of_open hopen, pushUnits_filler_eq_closed]

/-! ## An open frame that meets the invariants (10_state.md R20) -/

/-- I-2: the units of the accepted bits are those written and those pending. -/
theorem StateInv.units_of_open (hs : StateInv s) (hopen : s.st = .OPEN) : 3 * s.pos = 8 * s.len + s.cnt.toNat := by
  have hstatus := hs.status
  rw [statusInv, hopen] at hstatus
  exact hstatus.1

/-- I-1 with no unit pending. -/
theorem StateInv.acc_of_cnt_zero (hs : StateInv s) (h : s.cnt.toNat = 0) : s.acc = 0#8 := by
  have hacc := hs.pending
  rw [h, Nat.pow_zero, Nat.lt_one_iff] at hacc
  exact BitVec.eq_of_toNat_eq hacc

/-- I-4 after END: nothing is pending and the buffer holds `ceil(3*POS/8)` bytes. -/
theorem StateInv.endClosed_registers (hs : StateInv s) (hopen : s.st = .OPEN) :
    (endClosed s).cnt = 0#3 ∧ (endClosed s).acc = 0#8 ∧ (endClosed s).len = (3 * s.pos + 7) / 8 := by
  have hunits := hs.units_of_open hopen
  have hcnt := s.cnt.isLt
  by_cases h : s.cnt.toNat = 0
  · rw [endClosed_of_cnt_zero h]
    exact ⟨BitVec.eq_of_toNat_eq h, hs.acc_of_cnt_zero h, show s.len = _ by omega⟩
  · rw [endClosed_of_pending h]
    exact ⟨rfl, rfl, show s.len + 1 = _ by omega⟩

end filler

/-! ## The words of END -/

/-- The mask `0x300` of the opcode table keeps the kind of a word (30_encoding.md R51, R56). -/
theorem kindField_and_mask (w : CmdWord) : kindField (w &&& 0x300#10) = kindField w := by
  have hmask : BitVec.extractLsb' 8 2 0x300#10 = BitVec.allOnes 2 := rfl
  rw [kindField, BitVec.extractLsb'_and, hmask, BitVec.and_allOnes, kindField]

theorem decode_of_kind_end {w : CmdWord} (h : kindField w = 0b01#2) : decode w = .endFrame := by
  rw [← joinFields_kindField_chField w, h, decode_endWord]

/-- Settles O13: `0x300` selects the kind, and in OPEN the pushes of END come to its closed form, whose registers I-1
and I-2 give. -/
theorem endPadsAndProducesTheBuffer : Obligations.EndPadsAndProducesTheBuffer := by
  refine ⟨fun w hw => decode_of_kind_end ?_, fun s => ⟨fun hopen => ?_, fun h => ?_⟩⟩
  · rw [← kindField_and_mask, hw]
    rfl
  · exact ⟨endClosed s, execEnd_eq_closed hopen, (pushUnits_filler_eq_closed s).symm, rfl, endClosed_st s,
      fun hs => hs.endClosed_registers hopen⟩
  · exact execEnd_of_not_open (terminal.not_open h)

/-- Settles O15: I-2 makes `CNT` the rest of `3L` by 8, and the closed form of END writes the shifted `ACC` or nothing. -/
theorem fillerCountFollowsTheLength : Obligations.FillerCountFollowsTheLength := by
  intro s hs hopen
  have hunits := hs.units_of_open hopen
  have hcnt : s.cnt.toNat = 3 * s.pos % 8 := by
    have hlt := s.cnt.isLt
    omega
  have hzero : fillerCount s = 0 ↔ s.pos % 8 = 0 := by
    rw [fillerCount_eq_zero_iff]
    omega
  refine ⟨by rw [fillerCount, hcnt], hcnt, hzero, fillerCount_le_seven s, endClosed s, execEnd_eq_closed hopen,
    fun h => ?_, fun h => ?_⟩
  · rw [endClosed_of_cnt_zero (fillerCount_eq_zero_iff.mp h)]
    exact ⟨rfl, rfl⟩
  · rw [endClosed_of_pending (mt fillerCount_eq_zero_iff.mpr h)]
    exact ⟨rfl, rfl⟩

end Sys2Proof.Machine

/-! Frame control (42_frame_control.md): START (R90), a frame that is over (R91, R92) and the result view (R95). -/

namespace Sys2Proof.Machine

/-! ## A frame that is over (R91, R92) -/

/-- Whichever of the three instructions the code of the character makes it. -/
theorem exec_char_of_not_open (c : CharCode) {s : State} (h : s.st ≠ .OPEN) :
    exec (Command.char c).toInstr s = .next s := by
  rcases char_toInstr_cases c with hc | hc | hc <;> rw [hc]
  · exact acceptBit_of_not_open false h
  · exact acceptBit_of_not_open true h
  · exact execBadChar_of_not_open c h

/-- An input that takes a frame out of DONE or FAILED opens a fresh one. -/
theorem opensFrame_of_st_ne {x : Input} {s t : State} (hs : s.st ≠ .OPEN) (h : perform x s = .next t)
    (hst : t.st ≠ s.st) : opensFrame x = true := by
  by_contra hx
  have hself := perform_eq_self_of_not_open hs h (Bool.eq_false_of_not_eq_true hx)
  exact hst (congrArg State.st hself)

/-- Settles O18: outside OPEN each of the instructions holds the state, and so does every input that opens no frame. -/
theorem terminalStatesAbsorbCharAndEnd : Obligations.TerminalStatesAbsorbCharAndEnd := by
  intro s hs
  have hopen := hs.not_open
  exact ⟨fun c => exec_char_of_not_open c hopen, execEnd_of_not_open hopen,
    fun _ _ => opensFrame_of_st_ne hopen, fun _ _ => perform_eq_self_of_not_open hopen⟩

/-! ## The produced buffer (10_state.md R16, R20 I-7) -/

section buffer
variable {s : State}

/-- I-7 lists the buffer's bytes without a gap: they are the contents of the cells `0 .. LEN-1` in order. -/
theorem StateInv.map_some_bufferOf (hs : StateInv s) : (bufferOf s).map some = (List.range s.len).map s.out.read := by
  rw [bufferOf, List.map_filterMap_some_eq_filter_map_isSome, List.filter_eq_self]
  intro cell hcell
  obtain ⟨i, hi, rfl⟩ := List.mem_map.mp hcell
  exact (hs.cells i).mpr (List.mem_range.mp hi)

theorem StateInv.bufferOf_length (hs : StateInv s) : (bufferOf s).length = s.len := by
  simpa using congrArg List.length hs.map_some_bufferOf

theorem StateInv.read_eq_bufferOf_getElem (hs : StateInv s) {i : Nat} (hi : i < (bufferOf s).length) :
    s.out.read i = some (bufferOf s)[i] := by
  have hlen : i < s.len := hs.bufferOf_length ▸ hi
  have hcell := congrArg (·[i]?) hs.map_some_bufferOf
  simpa [hi, hlen] using hcell.symm

end buffer

/-! ## The view and the consumer's reads by the frame state (R95, 10_state.md R22) -/

section reads
variable {s : State}

theorem view_of_open (h : s.st = .OPEN) : view s = .busy := by
  simp [view, h]

theorem view_of_done (h : s.st = .DONE) : view s = .ok (bufferOf s) := by
  simp [view, h]

theorem view_of_failed (h : s.st = .FAILED) : view s = .err s.errChar s.errPos := by
  simp [view, h]

theorem consumerRead_OUT_of_value {i : Nat} {v : Byte} (h : memRead i s = .value v) :
    consumerRead (.OUT i) s = .value (.byte v) := by
  simp [consumerRead, h]

theorem consumerRead_OUT_refused {i : Nat} (h : s.st ≠ .DONE ∨ s.len ≤ i) :
    consumerRead (.OUT i) s = .refused .readUnavailable := by
  simp [consumerRead, memRead_refused h]

theorem consumerRead_LEN_of_done (h : s.st = .DONE) : consumerRead .LEN s = .value (.count s.len) := if_pos h

theorem consumerRead_ERRCODE_of_failed (h : s.st = .FAILED) :
    consumerRead .ERRCODE s = .value (.cause s.errCode) := if_pos h

theorem consumerRead_ERRCHAR_of_failed (h : s.st = .FAILED) :
    consumerRead .ERRCHAR s = .value (.byte s.errChar) := if_pos h

theorem consumerRead_ERRPOS_of_failed (h : s.st = .FAILED) :
    consumerRead .ERRPOS s = .value (.count s.errPos) := if_pos h

/-- While the frame is open the consumer has `ST` alone. -/
theorem consumerRead_refused_of_open (h : s.st = .OPEN) {it : Item} (hit : it ≠ .ST) :
    consumerRead it s = .refused .readUnavailable := by
  have hdone : s.st ≠ .DONE := by simp [h]
  have hfailed : s.st ≠ .FAILED := by simp [h]
  cases it with
  | ST => exact absurd rfl hit
  | LEN => exact if_neg hdone
  | OUT i => exact consumerRead_OUT_refused (.inl hdone)
  | ERRCODE | ERRCHAR | ERRPOS => exact if_neg hfailed
  | POS | ACC | CNT => rfl

/-- I-5: a failed frame has recorded InvalidInputError (60_exceptions.md R151). -/
theorem StateInv.errCode_of_failed (hs : StateInv s) (h : s.st = .FAILED) : s.errCode = 1#3 := by
  have hstatus := hs.status
  rw [statusInv, h] at hstatus
  exact hstatus.1

end reads

/-- Settles O26: I-7 makes the buffer the `LEN` cells one by one, and I-5 gives the cause in FAILED. -/
theorem viewFollowsTheFrameState : Obligations.ViewFollowsTheFrameState := by
  refine fun s hs => ⟨fun hopen => ?_, fun hdone => ?_, fun hfailed => ?_⟩
  · exact ⟨view_of_open hopen, fun _ => consumerRead_refused_of_open hopen⟩
  · have hlen := hs.bufferOf_length
    refine ⟨bufferOf s, view_of_done hdone, hlen, hlen.symm ▸ consumerRead_LEN_of_done hdone, fun i hi => ?_⟩
    have hcell := hs.read_eq_bufferOf_getElem hi
    exact ⟨consumerRead_OUT_of_value (memRead_of_read hdone (hlen ▸ hi) hcell), hcell⟩
  · have hcode := consumerRead_ERRCODE_of_failed hfailed
    rw [hs.errCode_of_failed hfailed] at hcode
    have hdone : s.st ≠ .DONE := by simp [hfailed]
    exact ⟨view_of_failed hfailed, hcode, consumerRead_ERRCHAR_of_failed hfailed,
      consumerRead_ERRPOS_of_failed hfailed, fun _ => memRead_refused (.inl hdone)⟩

/-! ## START (R90) -/

theorem decode_of_kind_start {w : CmdWord} (h : kindField w = 0b10#2) : decode w = .start := by
  rw [← joinFields_kindField_chField w, h, decode_startWord]

/-- Settles O16: `0x300` selects the kind, and START and reset are both `freshFrame`. -/
theorem startOpensAFreshFrame : Obligations.StartOpensAFreshFrame := by
  refine ⟨fun w hw => decode_of_kind_start ?_, fun s => ⟨?_, fun h => ?_, ?_⟩⟩
  · rw [← kindField_and_mask, hw]
    rfl
  · exact ⟨freshFrame s, exec_start s, rfl, rfl, rfl, rfl, rfl, rfl, rfl, rfl, rfl, rfl, rfl⟩
  · rw [exec_start, freshFrame_eq_self h]
  · rw [perform_reset, exec_start]

end Sys2Proof.Machine

/-! The clock divisor search (43_clock_divisor_reference.md): its domain (R102), the second factor (R104) and the least
fitting candidate (R106). -/

namespace Sys2Proof.Machine

/-! ## The second factor (R104) -/

/-- `(2F + NT) div (2NT)` is `F/(NT) + 1/2` rounded down. -/
theorem roundedM_eq_round {q : DivisorQuery} {n : Int} (hT : 0 < q.targetRate) (hn : 0 < n) :
    roundedM q n = round ((q.referenceFrequency : ℚ) / (n * q.targetRate)) := by
  have hden : 0 ≤ 2 * n * q.targetRate := by positivity
  have hne : (n * q.targetRate : ℚ) ≠ 0 := by positivity
  have hhalf : (q.referenceFrequency : ℚ) / (n * q.targetRate) + 1 / 2 =
      ((2 * q.referenceFrequency + n * q.targetRate : Int) : ℚ) / (2 * n * q.targetRate : Int) := by
    push_cast
    rw [mul_assoc, div_add_div _ _ hne two_ne_zero]
    ring
  rw [round_eq, hhalf, Int.floor_div_cast_of_nonneg hden, Int.floor_intCast, roundedM]

/-- Of two equally near integers `round` takes the larger. -/
theorem le_round_of_abs_sub_round_eq {x : ℚ} {k : Int} (h : |x - round x| = |x - k|) : k ≤ round x := by
  by_contra hlt
  have hk : (round x : ℚ) + 1 ≤ k := mod_cast not_le.mp hlt
  have hx : x < round x + 1 / 2 := (round_eq_iff.mp rfl).2
  have hfar : (k : ℚ) - x ≤ |x - k| := abs_sub_comm x k ▸ le_abs_self _
  have hnear := abs_sub_round x
  linarith

/-- Settles O47: the factor is Mathlib's `round`, which is nearest and rounds a half up. -/
theorem secondFactorIsRoundedHalfUp : Obligations.SecondFactorIsRoundedHalfUp := by
  intro q n k hT _ hn
  rw [roundedM_eq_round hT hn]
  exact ⟨round_le _ k, le_round_of_abs_sub_round_eq⟩

/-! ## The domain and the tests (R102, R105) -/

theorem isPowerOfTwo_iff {n : Int} : isPowerOfTwo n = true ↔ ∃ e : Nat, n = 2 ^ e := by
  rw [isPowerOfTwo, Bool.and_eq_true, decide_eq_true_iff, beq_iff_eq]
  constructor
  · rintro ⟨hpos, hlog⟩
    exact ⟨Nat.log2 n.toNat, by zify at hlog; omega⟩
  · rintro ⟨e, rfl⟩
    have hnat : ((2 : Int) ^ e).toNat = 2 ^ e := by norm_cast
    exact ⟨one_le_pow₀ one_le_two, by rw [hnat, Nat.log2_two_pow]⟩

theorem inDomain_iff {q : DivisorQuery} : q.inDomain = true ↔
    1 ≤ q.targetRate ∧ 1 ≤ q.referenceFrequency ∧ (∀ n ∈ q.candidates, ∃ e : Nat, n = 2 ^ e) ∧
      1 ≤ q.mLo ∧ q.mLo ≤ q.mHi ∧ 0 ≤ q.tolNum ∧ 1 ≤ q.tolDen := by
  simp only [DivisorQuery.inDomain, Bool.and_eq_true, decide_eq_true_iff, List.all_eq_true, isPowerOfTwo_iff, and_assoc]

theorem candidateFits_iff {q : DivisorQuery} {n : Int} : candidateFits q n = true ↔
    q.mLo ≤ roundedM q n ∧ roundedM q n ≤ q.mHi ∧
      |q.referenceFrequency - n * roundedM q n * q.targetRate| * q.tolDen ≤
        q.tolNum * (n * roundedM q n * q.targetRate) := by
  simp only [candidateFits, withinTolerance, Bool.and_eq_true, decide_eq_true_iff, Int.natCast_natAbs, and_assoc,
    mul_assoc]

/-! ## The ascending order (R106) -/

theorem insertAscending_eq_orderedInsert (n : Int) (l : List Int) :
    insertAscending n l = l.orderedInsert (· ≤ ·) n := by
  induction l with
  | nil => rfl
  | cons k rest ih => rw [insertAscending, List.orderedInsert_cons, ih]

theorem ascending_eq_insertionSort (l : List Int) : ascending l = l.insertionSort (· ≤ ·) := by
  induction l with
  | nil => rfl
  | cons n rest ih => rw [ascending, ih, insertAscending_eq_orderedInsert, List.insertionSort_cons]

@[simp] theorem mem_ascending {l : List Int} {n : Int} : n ∈ ascending l ↔ n ∈ l := by
  rw [ascending_eq_insertionSort, List.mem_insertionSort]

theorem pairwise_ascending (l : List Int) : (ascending l).Pairwise (· ≤ ·) :=
  ascending_eq_insertionSort l ▸ List.pairwise_insertionSort _ l

/-- In an ascending list the first element that passes is the least one. -/
theorem find?_eq_some_iff_least {p : Int → Bool} {n : Int} {l : List Int} (hl : l.Pairwise (· ≤ ·)) :
    l.find? p = some n ↔ n ∈ l ∧ p n = true ∧ ∀ k ∈ l, k < n → ¬ p k = true := by
  induction l with
  | nil => simp
  | cons a l ih =>
    obtain ⟨hhead, hl⟩ := List.pairwise_cons.mp hl
    have hle : ∀ k ∈ a :: l, a ≤ k := List.forall_mem_cons.mpr ⟨le_rfl, hhead⟩
    by_cases ha : p a = true
    · rw [List.find?_cons_of_pos ha, Option.some_inj]
      constructor
      · rintro rfl
        exact ⟨List.mem_cons_self, ha, fun k hk hlt => absurd (hle k hk) hlt.not_ge⟩
      · rintro ⟨hn, -, hleast⟩
        exact le_antisymm (hle n hn) (not_lt.mp fun hlt => hleast a List.mem_cons_self hlt ha)
    · rw [List.find?_cons_of_neg ha, ih hl, List.forall_mem_cons, List.mem_cons]
      have hna : p n = true → n ≠ a := fun hn h => ha (h ▸ hn)
      tauto

/-! ## The search (R106, R108) -/

section search
variable {q : DivisorQuery}

theorem divisorsFor_of_find?_eq_some {n : Int} (hd : q.inDomain = true)
    (hfind : (ascending q.candidates).find? (candidateFits q) = some n) :
    divisorsFor q = .next (n, roundedM q n) := by
  simp [divisorsFor, hd, hfind]

theorem divisorsFor_of_find?_eq_none (hd : q.inDomain = true)
    (hfind : (ascending q.candidates).find? (candidateFits q) = none) :
    divisorsFor q = .fault .unrepresentableRate := by
  simp [divisorsFor, hd, hfind]

theorem divisorsFor_of_not_inDomain (hd : q.inDomain = false) : divisorsFor q = .refused .divisorsOutsideDomain := by
  simp [divisorsFor, hd]

theorem divisorsFor_eq_next_iff {n m : Int} : divisorsFor q = .next (n, m) ↔
    q.inDomain = true ∧ (ascending q.candidates).find? (candidateFits q) = some n ∧ m = roundedM q n := by
  cases hd : q.inDomain with
  | false => simp [divisorsFor_of_not_inDomain hd]
  | true =>
    cases hfind : (ascending q.candidates).find? (candidateFits q) with
    | none => simp [divisorsFor_of_find?_eq_none hd hfind]
    | some k =>
      simp only [divisorsFor_of_find?_eq_some hd hfind, Host.Outcome.next.injEq, Prod.mk.injEq, Option.some_inj,
        true_and]
      exact and_congr_right fun hk => hk ▸ eq_comm

theorem divisorsFor_eq_fault_iff {f : Fault} : divisorsFor q = .fault f ↔
    f = .unrepresentableRate ∧ q.inDomain = true ∧ (ascending q.candidates).find? (candidateFits q) = none := by
  cases hd : q.inDomain with
  | false => simp [divisorsFor_of_not_inDomain hd]
  | true =>
    cases hfind : (ascending q.candidates).find? (candidateFits q) with
    | none => simp [divisorsFor_of_find?_eq_none hd hfind, @eq_comm _ f]
    | some k => simp [divisorsFor_of_find?_eq_some hd hfind]

theorem divisorsFor_eq_refused_iff {r : Refusal} : divisorsFor q = .refused r ↔
    r = .divisorsOutsideDomain ∧ ¬ q.inDomain = true := by
  cases hd : q.inDomain with
  | false => simp [divisorsFor_of_not_inDomain hd, @eq_comm _ r]
  | true =>
    cases hfind : (ascending q.candidates).find? (candidateFits q) with
    | none => simp [divisorsFor_of_find?_eq_none hd hfind]
    | some k => simp [divisorsFor_of_find?_eq_some hd hfind]

end search

/-- Settles O46: in ascending order the first fitting candidate is the least one. -/
theorem firstFittingCandidateIsReturned : Obligations.FirstFittingCandidateIsReturned := by
  refine fun q => ⟨fun n m => ?_, fun f => ?_, fun r => ?_⟩
  · rw [divisorsFor_eq_next_iff, find?_eq_some_iff_least (pairwise_ascending _), inDomain_iff]
    simp only [mem_ascending, candidateFits_iff, and_assoc, roundedM, and_comm (a := m = _)]
  · simp only [divisorsFor_eq_fault_iff, List.find?_eq_none, mem_ascending, candidateFits_iff, inDomain_iff, roundedM]
  · rw [divisorsFor_eq_refused_iff, inDomain_iff]

end Sys2Proof.Machine

/-! The capacity (70_reset_and_hazards.md R178). -/

namespace Sys2Proof.Machine

theorem atCapacity_of_unbounded {s : State} (h : s.cfg.lmax = none) : atCapacity s = false := by
  simp [atCapacity_eq_false_iff, h]

/-- Settles O21: at `POS = LMAX` only a valid character asks for the capacity (R178), while BADCHAR records `POS` (R72,
R153) and END ends the frame (R84); an unbounded `LMAX` always has room. -/
theorem capacityRefusesOnlyValidCharacters : Obligations.CapacityRefusesOnlyValidCharacters := by
  refine fun s hopen => ⟨fun full => ⟨?_, ?_, fun c => ?_, ?_⟩, fun unbounded => ?_⟩
  · exact acceptBit_of_full false hopen full
  · exact acceptBit_of_full true hopen full
  · exact ⟨_, execBadChar_of_open c hopen, raiseInvalidInput_st .., raiseInvalidInput_errPos ..⟩
  · exact ⟨_, execEnd_of_open hopen, rfl⟩
  · have room := atCapacity_of_unbounded unbounded
    exact ⟨acceptBit_answersNext false room, acceptBit_answersNext true room⟩

end Sys2Proof.Machine

/-! The words of the instructions and back (30_encoding.md R51, R53, R56), the words of a frame (R62) and the step that
performs the next one. -/

namespace Sys2Proof.Machine

/-! ## Valid characters (R52, R53) -/

theorem validChar_eq_false_iff {c : CharCode} : validChar c = false ↔ c ≠ 0x30#8 ∧ c ≠ 0x31#8 := by
  simp [validChar]

theorem validChar_iff {c : CharCode} : validChar c = true ↔ c = 0x30#8 ∨ c = 0x31#8 := by
  simp [validChar]

@[simp] theorem bitOfChar_charOfBit (b : LogicalBit) : bitOfChar (charOfBit b) = b := by cases b <;> rfl

@[simp] theorem validChar_charOfBit (b : LogicalBit) : validChar (charOfBit b) = true := by cases b <;> rfl

theorem charOfBit_bitOfChar {c : CharCode} (h : validChar c = true) : charOfBit (bitOfChar c) = c := by
  rcases validChar_iff.mp h with rfl | rfl <;> rfl

theorem char_toInstr_of_invalid {c : CharCode} (h : validChar c = false) : (Command.char c).toInstr = .badChar c := by
  obtain ⟨hzero, hone⟩ := validChar_eq_false_iff.mp h
  rw [char_toInstr_eq, if_neg hzero, if_neg hone]

/-! ## The round trip (R51, R56) -/

theorem decode_encode {i : Instr} (h : i.wellFormed = true) : decode (encode i) = i := by
  cases i with
  | bit0 => exact decode_charWord _
  | bit1 => exact decode_charWord _
  | badChar c => exact (decode_charWord c).trans (char_toInstr_of_invalid (by simpa [Instr.wellFormed] using h))
  | endFrame => exact decode_endWord _
  | start => exact decode_startWord _
  | reserved ch => exact decode_reservedWord ch

/-- The decoder answers BADCHAR for no valid character (R72). -/
theorem char_toInstr_wellFormed_and_encode (c : CharCode) :
    (Command.char c).toInstr.wellFormed = true ∧ encode (Command.char c).toInstr = joinFields 0b00#2 c := by
  cases hc : validChar c with
  | true => rcases validChar_iff.mp hc with rfl | rfl <;> exact ⟨rfl, rfl⟩
  | false =>
    rw [char_toInstr_of_invalid hc]
    exact ⟨by rw [Instr.wellFormed, hc, Bool.not_false], rfl⟩

/-- The mask `0x300` sets `ch` to 0 and keeps the kind. -/
theorem joinFields_and_kindMask (kind : BitVec 2) (ch : BitVec 8) :
    joinFields kind ch &&& 0x300#10 = joinFields kind 0x00#8 := by
  refine ((joinFields_eq_iff ..).mpr ⟨?_, ?_⟩).symm
  · rw [kindField_and_mask, kindField_joinFields]
  · have hmask : BitVec.extractLsb' 0 8 0x300#10 = 0x00#8 := rfl
    rw [chField, BitVec.extractLsb'_and, hmask, BitVec.and_zero]

theorem canonicalWord_joinFields (kind : BitVec 2) (ch : BitVec 8) :
    canonicalWord (joinFields kind ch) =
      if kind = 0b01#2 ∨ kind = 0b10#2 then joinFields kind 0x00#8 else joinFields kind ch := by
  rw [canonicalWord, kindField_joinFields, joinFields_and_kindMask]

theorem decode_wellFormed_and_encode (w : CmdWord) :
    (decode w).wellFormed = true ∧ encode (decode w) = canonicalWord w := by
  obtain ⟨ch, rfl | rfl | rfl | rfl⟩ := exists_joinFields w <;> rw [canonicalWord_joinFields]
  · rw [decode_charWord]
    exact char_toInstr_wellFormed_and_encode ch
  · rw [decode_endWord]
    exact ⟨rfl, rfl⟩
  · rw [decode_startWord]
    exact ⟨rfl, rfl⟩
  · rw [decode_reservedWord]
    exact ⟨rfl, rfl⟩

/-- Settles O1: by the instruction in one direction, by the kind of the word in the other. -/
theorem decodeEncodeRoundTrip : Obligations.DecodeEncodeRoundTrip :=
  ⟨fun _ => decode_encode, decode_wellFormed_and_encode⟩

/-- Settles O3: each listed number is below 1024 and its word is decoded by its row. -/
theorem listedWordsDecodeAsListed : Obligations.ListedWordsDecodeAsListed :=
  ⟨rfl, rfl, rfl, rfl, rfl, rfl, rfl⟩

/-- Settles O7: only `0x30` and `0x31` have `0b0011000` above bit 0, and they decode by bit 0. -/
theorem logicalBitIsTheLowBitOfTheCode : Obligations.LogicalBitIsTheLowBitOfTheCode := by
  have derived : ∀ c : CharCode,
      logicalBit? c = if c.extractLsb' 1 7 = 0b0011000#7 then some (c.getLsbD 0) else none := by decide
  refine fun c => ⟨derived c, fun b hb => ?_⟩
  rw [decode_toWord, Command.toInstr, hb]
  cases b <;> rfl

/-! ## ENCODE (R62) -/

theorem assemble_encode (s : List CharCode) :
    assemble [.encode s] =
      Command.start.toWord :: (s.map (fun c => (Command.char c).toWord) ++ [Command.endFrame.toWord]) := by
  simp [assemble, lineCommands]

/-- Settles O50: each word of the line decodes to the instruction its command is. -/
theorem encodeLineExpandsInOrder : Obligations.EncodeLineExpandsInOrder := by
  refine fun s => ⟨?_, by simp [assemble_encode]⟩
  have hchar : ∀ c, decode (Command.char c).toWord =
      if c = 0x30#8 then .bit0 else if c = 0x31#8 then .bit1 else .badChar c := commandsDecodeByTheirCharacter.2.1
  have hstart : decode Command.start.toWord = .start := decode_toWord .start
  have hend : decode Command.endFrame.toWord = .endFrame := decode_toWord .endFrame
  simp [assemble_encode, hchar, hstart, hend]

/-! ## The step -/

theorem step_of_inputs_eq_cons {s : State} {x : Input} {rest : List Input} (h : s.inputs = x :: rest) :
    step s = perform x (withInputs s rest) := by
  rw [step, h]
  rfl

theorem step_of_inputs_eq_nil {s : State} (h : s.inputs = []) : step s = .next s := by
  rw [step, h]

/-- What the decoder reads is a number of 10 bits (log entry 5). -/
theorem decodeTableWord_eq_some_iff {nbits w : Nat} {i : Instr} :
    decodeTableWord nbits w = some i ↔ w % 2 ^ nbits < 1024 ∧ decode (BitVec.ofNat 10 (w % 2 ^ nbits)) = i := by
  by_cases h : w % 2 ^ nbits < 1024 <;> simp [decodeTableWord, decodeNumber, h]

/-- Settles O22: `step` takes the head of the list, which `withFetchWord` put there. -/
theorem stepPerformsTheNextInput : Obligations.StepPerformsTheNextInput := by
  refine ⟨fun s w rest h => step_of_inputs_eq_cons h, fun s rest h => step_of_inputs_eq_cons h,
    fun s => step_of_inputs_eq_nil, fun s nbits w i h => ?_⟩
  obtain ⟨hlt, rfl⟩ := decodeTableWord_eq_some_iff.mp h
  rw [State.withFetchWord, if_pos hlt]
  rfl

end Sys2Proof.Machine

/-! What the datapath of one instruction can change: the byte it writes at `LEN` and the registers (40_symbol_map.md
R70, R71, R73; 41_byte_packer.md R84; 20_memory.md R36). -/

namespace Sys2Proof.Machine

section datapath
variable (b : LogicalBit) (s : State)

/-- The output side of a symbol in closed form: no byte, or one at index `LEN`. -/
theorem acceptBitClosed_out_cases :
    (s.cnt.toNat ≤ 4 ∧ (acceptBitClosed b s).out = s.out ∧ (acceptBitClosed b s).len = s.len) ∨
      (5 ≤ s.cnt.toNat ∧ (acceptBitClosed b s).len = s.len + 1 ∧
        ∃ v, (acceptBitClosed b s).out = s.out.write s.len v) := by
  rw [acceptBitClosed]
  split_ifs with h
  · exact .inl ⟨by omega, rfl, rfl⟩
  · exact .inr ⟨by omega, rfl, _, rfl⟩

/-- The output side of END in closed form: no byte, or the last one at index `LEN`. -/
theorem endClosed_out_cases :
    (s.cnt.toNat = 0 ∧ (endClosed s).out = s.out ∧ (endClosed s).len = s.len) ∨
      (s.cnt.toNat ≠ 0 ∧ (endClosed s).len = s.len + 1 ∧ ∃ v, (endClosed s).out = s.out.write s.len v) := by
  by_cases h : s.cnt.toNat = 0
  · rw [endClosed_of_cnt_zero h]
    exact .inl ⟨h, rfl, rfl⟩
  · rw [endClosed_of_pending h]
    exact .inr ⟨h, rfl, _, rfl⟩

end datapath

/-- What an instruction answers, in closed form: hold the state outside OPEN, one symbol, the produced buffer, the
failure entry or a fresh frame. -/
theorem exec_next_closed_cases {i : Instr} {s t : State} (h : exec i s = .next t) :
    (t = s ∧ s.st ≠ .OPEN) ∨
    (∃ b, (b = false ∧ i = .bit0 ∨ b = true ∧ i = .bit1) ∧ s.st = .OPEN ∧ atCapacity s = false ∧
      t = acceptBitClosed b s) ∨
    (i = .endFrame ∧ s.st = .OPEN ∧ t = endClosed s) ∨
    (∃ c, i = .badChar c ∧ s.st = .OPEN ∧ t = raiseInvalidInput c s.pos s) ∨
    (i = .start ∧ t = freshFrame s) := by
  simpa only [pushUnits_sym_eq_closed, pushUnits_filler_eq_closed] using exec_next_cases h

/-! ## What stays -/

section unchanged
variable (b : LogicalBit) (s : State)

@[simp] theorem acceptBitClosed_st : (acceptBitClosed b s).st = s.st := by simp [← pushUnits_sym_eq_closed]
@[simp] theorem acceptBitClosed_pos : (acceptBitClosed b s).pos = s.pos + 1 := by simp [← pushUnits_sym_eq_closed]
@[simp] theorem acceptBitClosed_errCode : (acceptBitClosed b s).errCode = s.errCode := by
  simp [← pushUnits_sym_eq_closed]
@[simp] theorem acceptBitClosed_errChar : (acceptBitClosed b s).errChar = s.errChar := by
  simp [← pushUnits_sym_eq_closed]
@[simp] theorem acceptBitClosed_errPos : (acceptBitClosed b s).errPos = s.errPos := by
  simp [← pushUnits_sym_eq_closed]
@[simp] theorem acceptBitClosed_cfg : (acceptBitClosed b s).cfg = s.cfg := by simp [← pushUnits_sym_eq_closed]
@[simp] theorem acceptBitClosed_inputs : (acceptBitClosed b s).inputs = s.inputs := by
  simp [← pushUnits_sym_eq_closed]

@[simp] theorem endClosed_pos : (endClosed s).pos = s.pos := by simp [← pushUnits_filler_eq_closed]
@[simp] theorem endClosed_errCode : (endClosed s).errCode = s.errCode := by simp [← pushUnits_filler_eq_closed]
@[simp] theorem endClosed_errChar : (endClosed s).errChar = s.errChar := by simp [← pushUnits_filler_eq_closed]
@[simp] theorem endClosed_errPos : (endClosed s).errPos = s.errPos := by simp [← pushUnits_filler_eq_closed]
@[simp] theorem endClosed_cfg : (endClosed s).cfg = s.cfg := by simp [← pushUnits_filler_eq_closed]
@[simp] theorem endClosed_inputs : (endClosed s).inputs = s.inputs := by simp [← pushUnits_filler_eq_closed]

end unchanged

/-- The frame of a valid character, for both logical bits. -/
theorem acceptBit_frame {b : LogicalBit} {s t : State} (h : acceptBit b s = .next t) :
    t.st = s.st ∧ t.errCode = s.errCode ∧ t.errChar = s.errChar ∧ t.errPos = s.errPos ∧
    t.cfg = s.cfg ∧ t.inputs = s.inputs ∧
    (∀ a, a ≠ s.len ∨ s.cnt.toNat ≤ 4 ∨ s.st ≠ .OPEN → t.out.read a = s.out.read a) ∧
    (s.cnt.toNat ≤ 4 ∨ s.st ≠ .OPEN → t.len = s.len) := by
  rcases acceptBit_next_cases h with ⟨hopen, -, rfl⟩ | ⟨-, rfl⟩
  · rw [pushUnits_sym_eq_closed]
    refine ⟨acceptBitClosed_st .., acceptBitClosed_errCode .., acceptBitClosed_errChar .., acceptBitClosed_errPos ..,
      acceptBitClosed_cfg .., acceptBitClosed_inputs .., ?_⟩
    rcases acceptBitClosed_out_cases b s with ⟨-, hout, hlen⟩ | ⟨hcnt, -, v, hout⟩
    · exact ⟨fun _ _ => by rw [hout], fun _ => hlen⟩
    · have hwrites : ¬(s.cnt.toNat ≤ 4 ∨ s.st ≠ .OPEN) := not_or.mpr ⟨not_le.mpr hcnt, not_not.mpr hopen⟩
      exact ⟨fun a ha => by rw [hout, Memory.read_write_other _ _ (ha.resolve_right hwrites)],
        fun hno => absurd hno hwrites⟩
  · exact ⟨rfl, rfl, rfl, rfl, rfl, rfl, fun _ _ => rfl, fun _ => rfl⟩

/-- Settles O11: the closed form of R73 writes at most the cell `LEN`, and that one only when `CNT` is at least 5. -/
theorem bitsChangeOnlyTheDatapath : Obligations.BitsChangeOnlyTheDatapath := by
  rintro i s t (rfl | rfl) h
  · exact acceptBit_frame (b := false) h
  · exact acceptBit_frame (b := true) h

/-- Settles O14: the closed form of R84 writes at most the cell `LEN`, and that one only when a unit is pending. -/
theorem endChangesOnlyTheLastByte : Obligations.EndChangesOnlyTheLastByte := by
  intro s t h
  rcases execEnd_next_cases h with ⟨hopen, rfl⟩ | ⟨-, rfl⟩
  · rw [pushUnits_filler_eq_closed]
    refine ⟨endClosed_pos s, endClosed_errCode s, endClosed_errChar s, endClosed_errPos s, endClosed_cfg s,
      endClosed_inputs s, ?_⟩
    rcases endClosed_out_cases s with ⟨-, hout, hlen⟩ | ⟨hcnt, -, v, hout⟩
    · exact ⟨fun _ _ => by rw [hout], fun _ => hlen⟩
    · have hwrites : ¬(s.cnt.toNat = 0 ∨ s.st ≠ .OPEN) := not_or.mpr ⟨hcnt, not_not.mpr hopen⟩
      exact ⟨fun a ha => by rw [hout, Memory.read_write_other _ _ (ha.resolve_right hwrites)],
        fun hno => absurd hno hwrites⟩
  · exact ⟨rfl, rfl, rfl, rfl, rfl, rfl, fun _ _ => rfl, fun _ => rfl⟩

theorem exec_cfg_inputs {i : Instr} {s t : State} (h : exec i s = .next t) : t.cfg = s.cfg ∧ t.inputs = s.inputs := by
  rcases exec_next_closed_cases h with ⟨rfl, -⟩ | ⟨b, -, -, -, rfl⟩ | ⟨-, -, rfl⟩ | ⟨c, -, -, rfl⟩ | ⟨-, rfl⟩
  · exact ⟨rfl, rfl⟩
  · exact ⟨acceptBitClosed_cfg b s, acceptBitClosed_inputs b s⟩
  · exact ⟨endClosed_cfg s, endClosed_inputs s⟩
  · exact ⟨rfl, rfl⟩
  · exact ⟨rfl, rfl⟩

theorem perform_cfg_inputs {x : Input} {s t : State} (h : perform x s = .next t) :
    t.cfg = s.cfg ∧ t.inputs = s.inputs := by
  rcases perform_next_cases h with ⟨-, rfl⟩ | ⟨w, -, hexec⟩
  · exact ⟨rfl, rfl⟩
  · exact exec_cfg_inputs hexec

/-- Settles O23: no instruction touches the model's two fields, and `step` takes the head of the list. -/
theorem stepsTakeOneInputAndKeepParameters : Obligations.StepsTakeOneInputAndKeepParameters := by
  refine ⟨fun _ _ _ => exec_cfg_inputs, fun s t h => ?_⟩
  rcases step_next_cases h with ⟨hnil, rfl⟩ | ⟨x, rest, hcons, hperform⟩
  · simp [hnil]
  · simpa [hcons] using perform_cfg_inputs hperform

end Sys2Proof.Machine

/-! The invariants of the state (10_state.md R20 I-1, I-2, I-4 to I-7): what `push_unit` keeps, and that every step
keeps the whole. -/

namespace Sys2Proof.Machine

/-! ## What `push_unit` keeps -/

/-- The part of `StateInv` that `push_unit` alone keeps: the canonical form, I-7 and I-1. -/
structure PackerInv (s : State) : Prop where
  memory : s.out.wf
  cells : ∀ i, (s.out.read i).isSome = true ↔ i < s.len
  pending : s.acc.toNat < 2 ^ s.cnt.toNat

theorem StateInv.packer {s : State} (hs : StateInv s) : PackerInv s := ⟨hs.memory, hs.cells, hs.pending⟩

/-- The completed byte goes to the first cell without a value. -/
theorem cells_write {m : Memory} {n : Nat} (h : ∀ i, (m.read i).isSome = true ↔ i < n) (v : Byte) (i : Nat) :
    ((m.write n v).read i).isSome = true ↔ i < n + 1 := by
  rw [Memory.read_write]
  split_ifs with hi
  · simp [hi]
  · rw [h]
    omega

theorem packerInv_pushUnit {s : State} (hs : PackerInv s) (u : LineUnit) : PackerInv (pushUnit u s) := by
  suffices h : (∀ i, ((pushUnit u s).out.read i).isSome = true ↔ i < (pushUnit u s).len) ∧
      (pushUnit u s).acc.toNat < 2 ^ (pushUnit u s).cnt.toNat from ⟨pushUnit_wf hs.memory, h.1, h.2⟩
  rcases pushUnit_cases u s with ⟨hcnt, hout, hlen, hacc, hcnt'⟩ | ⟨-, hout, hlen, hacc, hcnt'⟩
  all_goals rw [hout, hlen, hacc, hcnt']
  · have hle : s.cnt.toNat ≤ 7 := Nat.le_of_lt_succ s.cnt.isLt
    exact ⟨hs.cells, shiftIn_lt_two_pow_succ u hs.pending hle⟩
  · exact ⟨cells_write hs.cells _, by simp⟩

theorem packerInv_pushUnits {s : State} (hs : PackerInv s) (us : List LineUnit) : PackerInv (pushUnits us s) := by
  induction us generalizing s with
  | nil => exact hs
  | cons u us ih => exact ih (packerInv_pushUnit hs u)

/-! ## Every way out of a state that meets the invariant -/

theorem stateInv_withInputs_iff {s : State} {xs : List Input} : StateInv (withInputs s xs) ↔ StateInv s :=
  ⟨fun ⟨hm, hcells, hp, hst, hcap⟩ => ⟨hm, hcells, hp, hst, hcap⟩,
    fun ⟨hm, hcells, hp, hst, hcap⟩ => ⟨hm, hcells, hp, hst, hcap⟩⟩

theorem stateInv_freshFrame (s : State) : StateInv (freshFrame s) where
  memory := Memory.wf_nil
  cells := by simp
  pending := by simp
  status := ⟨rfl, rfl, rfl, rfl⟩
  capacity := fun l _ => Nat.zero_le l

/-- I-6 in an open frame. -/
theorem StateInv.noError_of_open {s : State} (hs : StateInv s) (hopen : s.st = .OPEN) : noErrorRecorded s := by
  have hstatus := hs.status
  rw [statusInv, hopen] at hstatus
  exact hstatus.2

/-- The failure entry discards the output, whatever the datapath held (60_exceptions.md R155). -/
theorem stateInv_raiseInvalidInput {s : State} (hs : StateInv s) {c : CharCode} (hc : validChar c = false) :
    StateInv (raiseInvalidInput c s.pos s) where
  memory := Memory.wf_nil
  cells := by simp
  pending := by simp
  status := ⟨rfl, rfl, rfl, rfl, rfl, rfl, validChar_eq_false_iff.mp hc⟩
  capacity := hs.capacity

/-- One symbol more is three units more, and there was room for it. -/
theorem stateInv_acceptBitClosed {s : State} (hs : StateInv s) (hopen : s.st = .OPEN) (room : atCapacity s = false)
    (b : LogicalBit) : StateInv (acceptBitClosed b s) := by
  have hunits := hs.units_of_open hopen
  have herr := hs.noError_of_open hopen
  rw [← pushUnits_sym_eq_closed]
  obtain ⟨hmemory, hcells, hpending⟩ := packerInv_pushUnits hs.packer (sym b)
  refine ⟨hmemory, hcells, hpending, ?_, fun l hl => ?_⟩
  · have htotal := pushUnits_total (sym b) s
    rw [sym_length] at htotal
    simp only [statusInv, pushUnits_st, hopen, noErrorRecorded, pushUnits_errCode, pushUnits_errChar, pushUnits_errPos]
    exact ⟨by omega, herr⟩
  · rw [pushUnits_cfg] at hl
    have hle := hs.capacity l hl
    have hne : l ≠ s.pos := by
      rintro rfl
      exact (atCapacity_eq_false_iff s).mp room hl
    show s.pos + 1 ≤ l
    omega

/-- The filler units complete the last byte (I-4). -/
theorem stateInv_endClosed {s : State} (hs : StateInv s) (hopen : s.st = .OPEN) : StateInv (endClosed s) := by
  obtain ⟨hcnt, hacc, hlen⟩ := hs.endClosed_registers hopen
  have herr := hs.noError_of_open hopen
  have hpacker : PackerInv (endClosed s) := by
    obtain ⟨hmemory, hcells, hpending⟩ := packerInv_pushUnits hs.packer (List.replicate (fillerCount s) false)
    rw [← pushUnits_filler_eq_closed]
    exact ⟨hmemory, hcells, hpending⟩
  refine ⟨hpacker.memory, hpacker.cells, hpacker.pending, ?_, ?_⟩
  · simp only [statusInv, endClosed_st, noErrorRecorded, endClosed_errCode, endClosed_errChar, endClosed_errPos,
      endClosed_pos]
    exact ⟨hcnt, hacc, hlen, herr⟩
  · rw [endClosed_cfg, endClosed_pos]
    exact hs.capacity

theorem stateInv_exec {i : Instr} {s t : State} (hs : StateInv s) (hi : i.wellFormed = true)
    (h : exec i s = .next t) : StateInv t := by
  rcases exec_next_closed_cases h with ⟨rfl, -⟩ | ⟨b, -, hopen, room, rfl⟩ | ⟨-, hopen, rfl⟩ | ⟨c, rfl, hopen, rfl⟩ |
    ⟨-, rfl⟩
  · exact hs
  · exact stateInv_acceptBitClosed hs hopen room b
  · exact stateInv_endClosed hs hopen
  · exact stateInv_raiseInvalidInput hs (by simpa [Instr.wellFormed] using hi)
  · exact stateInv_freshFrame s

theorem stateInv_perform {x : Input} {s t : State} (hs : StateInv s) (h : perform x s = .next t) : StateInv t := by
  rcases perform_next_cases h with ⟨-, rfl⟩ | ⟨w, -, hexec⟩
  · exact stateInv_freshFrame s
  · exact stateInv_exec hs (decode_wellFormed_and_encode w).1 hexec

/-- Settles O30: each answer of an instruction the decoder gives keeps the invariant, and the model's list of inputs is
no part of it. -/
theorem everyStepKeepsTheStateInvariant : Obligations.EveryStepKeepsTheStateInvariant := by
  intro s t hs h
  rcases step_next_cases h with ⟨-, rfl⟩ | ⟨x, rest, -, hperform⟩
  · exact hs
  · exact stateInv_perform (stateInv_withInputs_iff.mpr hs) hperform

/-- Settles O32: from the canonical form alone, since every write of `push_unit` keeps it. -/
theorem everyStepKeepsMemoryCanonical : Obligations.EveryStepKeepsMemoryCanonical := by
  intro s t hs h
  rcases step_next_cases h with ⟨-, rfl⟩ | ⟨x, rest, -, hperform⟩
  · exact hs
  · rcases perform_next_cases hperform with ⟨-, rfl⟩ | ⟨w, -, hexec⟩
    · exact Memory.wf_nil
    · rcases exec_next_cases hexec with ⟨rfl, -⟩ | ⟨b, -, -, -, rfl⟩ | ⟨-, -, rfl⟩ | ⟨c, -, -, rfl⟩ | ⟨-, rfl⟩
      · exact hs
      · exact pushUnits_wf hs
      · exact pushUnits_wf hs
      · exact Memory.wf_nil
      · exact Memory.wf_nil

/-- Settles O24: the closed forms write at most one byte, at `LEN`, which I-7 says held no value. -/
theorem writesGoToTheNextCellOncePerStep : Obligations.WritesGoToTheNextCellOncePerStep := by
  intro x s t hs h
  have hfree : s.out.read s.len = none := by
    rw [← Option.not_isSome_iff_eq_none, hs.cells]
    exact lt_irrefl _
  rcases perform_next_cases h with ⟨rfl, rfl⟩ | ⟨w, rfl, hexec⟩
  · exact .inr (.inr ⟨rfl, rfl, .inl rfl⟩)
  · rcases exec_next_closed_cases hexec with ⟨rfl, -⟩ | ⟨b, -, hopen, -, rfl⟩ | ⟨-, hopen, rfl⟩ | ⟨c, -, hopen, rfl⟩ |
      ⟨hstart, rfl⟩
    · exact .inl ⟨rfl, rfl⟩
    · rcases acceptBitClosed_out_cases b s with ⟨-, hout, hlen⟩ | ⟨-, hlen, v, hout⟩
      · exact .inl ⟨hout, hlen⟩
      · exact .inr (.inl ⟨hopen, hfree, v, hout, hlen⟩)
    · rcases endClosed_out_cases s with ⟨-, hout, hlen⟩ | ⟨-, hlen, v, hout⟩
      · exact .inl ⟨hout, hlen⟩
      · exact .inr (.inl ⟨hopen, hfree, v, hout, hlen⟩)
    · exact .inr (.inr ⟨rfl, rfl, .inr ⟨hopen, rfl⟩⟩)
    · exact .inr (.inr ⟨rfl, rfl, .inl (by simp [opensFrame, hstart])⟩)

end Sys2Proof.Machine

/-! The units a state holds and the bytes of a stream (10_state.md R20 I-3, I-4; 41_byte_packer.md R85, R86, R87). -/

namespace Sys2Proof.Machine

/-! ## Bytes and their units (20_memory.md R33) -/

@[simp] theorem unitsOfByte_length (v : Byte) : (unitsOfByte v).length = 8 := rfl

theorem unitsOfByte_injective {v w : Byte} (h : unitsOfByte v = unitsOfByte w) : v = w := by
  simp only [unitsOfByte, List.cons.injEq, and_true] at h
  obtain ⟨h7, h6, h5, h4, h3, h2, h1, h0⟩ := h
  refine BitVec.eq_of_getLsbD_eq fun i hi => ?_
  interval_cases i <;> assumption

theorem byteOf_unitsOfByte (v : Byte) : byteOf (unitsOfByte v) = v :=
  unitsOfByte_injective (unitsOfByte_byteOf (unitsOfByte_length v))

theorem pack_append {w : List LineUnit} (hw : w.length = 8) (u : List LineUnit) :
    pack (w ++ u) = byteOf w :: pack u := by
  have hdrop (i : Nat) : ((w ++ u).drop (8 * (i + 1))).take 8 = (u.drop (8 * i)).take 8 := by
    rw [Nat.mul_succ, Nat.add_comm, ← List.drop_drop, ← hw, List.drop_left]
  have hlen : (w ++ u).length / 8 = u.length / 8 + 1 := by
    rw [List.length_append, hw]
    omega
  rw [pack, hlen, List.range_succ_eq_map, List.map_cons, List.map_map, pack]
  refine congrArg₂ _ ?_ (List.map_congr_left fun i _ => congrArg byteOf (hdrop i))
  simp [← hw]

/-- Packing the units of some bytes gives the bytes back. -/
theorem pack_flatMap_unitsOfByte (bytes : List Byte) : pack (bytes.flatMap unitsOfByte) = bytes := by
  induction bytes with
  | nil => rfl
  | cons v bytes ih => rw [List.flatMap_cons, pack_append (unitsOfByte_length v), byteOf_unitsOfByte, ih]

/-- Unpacking a packed stream of full bytes gives the stream back. -/
theorem flatMap_unitsOfByte_pack {u : List LineUnit} (hu : 8 ∣ u.length) : (pack u).flatMap unitsOfByte = u := by
  obtain ⟨k, hk⟩ := hu
  induction k generalizing u with
  | zero => simp [List.length_eq_zero_iff.mp hk, pack]
  | succ k ih =>
    have htake : (u.take 8).length = 8 := by simp [hk]
    conv_lhs => rw [← List.take_append_drop 8 u]
    rw [pack_append htake, List.flatMap_cons, unitsOfByte_byteOf htake, ih (by rw [List.length_drop]; omega),
      List.take_append_drop]

theorem pack_take (u : List LineUnit) (k : Nat) : pack (u.take (8 * k)) = (pack u).take k := by
  have hlen : (pack (u.take (8 * k))).length = min k (u.length / 8) := by
    rw [pack_length, List.length_take]
    omega
  refine List.ext_getElem (by rw [hlen, List.length_take, pack_length]) fun i hi _ => ?_
  have hik : i < k := (hlen ▸ hi).trans_le (Nat.min_le_left ..)
  rw [List.getElem_take, pack_getElem, pack_getElem, List.drop_take, List.take_take, Nat.min_eq_left (by omega)]

/-! ## The reference stream (R85, R86) -/

section stream
variable (bits : List LogicalBit)

@[simp] theorem expand_length : (expand bits).length = 3 * bits.length := by
  simp [expand, List.length_flatMap, sym_length, Nat.mul_comm]

theorem expand_append (more : List LogicalBit) : expand (bits ++ more) = expand bits ++ expand more :=
  List.flatMap_append

theorem expand_cons (b : LogicalBit) : expand (b :: bits) = sym b ++ expand bits := List.flatMap_cons

theorem symbolStream_eq :
    symbolStream bits = expand bits ++ List.replicate ((8 - 3 * bits.length % 8) % 8) false := by
  rw [symbolStream, pad, expand_length]

theorem symbolStream_length : (symbolStream bits).length = 8 * ((3 * bits.length + 7) / 8) := by
  rw [symbolStream_eq, List.length_append, expand_length, List.length_replicate]
  omega

theorem encodeBits_length : (encodeBits bits).length = (3 * bits.length + 7) / 8 := by
  rw [encodeBits, pack_length, symbolStream_length, Nat.mul_div_cancel_left _ (by decide)]

theorem flatMap_unitsOfByte_encodeBits : (encodeBits bits).flatMap unitsOfByte = symbolStream bits :=
  flatMap_unitsOfByte_pack ⟨_, symbolStream_length bits⟩

end stream

/-- Settles O39: each bit is three units, and padding completes the last byte. -/
theorem encodeGivesCeilThreeEighthsBytes : Obligations.EncodeGivesCeilThreeEighthsBytes :=
  fun bits => ⟨encodeBits_length bits, symbolStream_length bits⟩

/-- The symbol of bit `k` stands after the `3k` units of the bits before it. -/
theorem expand_symbol {bits : List LogicalBit} {k : Nat} (h : k < bits.length) :
    ∃ before after, expand bits = before ++ sym bits[k] ++ after ∧ before.length = 3 * k := by
  refine ⟨expand (bits.take k), expand (bits.drop (k + 1)), ?_, by rw [expand_length, List.length_take_of_le h.le]⟩
  conv_lhs => rw [← List.take_append_drop k bits, List.drop_eq_getElem_cons h]
  rw [expand_append, expand_cons, List.append_assoc]

/-- Settles O40: the stream is the symbols one after another and then only filler. -/
theorem symbolsStandInInputOrder : Obligations.SymbolsStandInInputOrder := by
  refine fun bits => ⟨fun k h => ?_, fun j hj => ?_, fun b => by cases b <;> rfl⟩
  · obtain ⟨before, after, hexpand, hlen⟩ := expand_symbol h
    rw [symbolStream_eq, hexpand, ← hlen, List.append_assoc, List.append_assoc, List.drop_left,
      ← sym_length bits[k], List.take_left]
  · rw [symbolStream_eq, List.getD_append_right _ _ _ _ (by rwa [expand_length])]
    simp [List.getD_eq_getElem?_getD, List.getElem?_replicate]
    split <;> rfl

/-- Settles O42: both streams begin with the units of the first bits, and packing reads them 8 at a time. -/
theorem moreBitsKeepTheFullBytes : Obligations.MoreBitsKeepTheFullBytes := by
  intro bits more
  have hprefix (rest : List LineUnit) :
      (expand bits ++ rest).take (8 * (3 * bits.length / 8)) = (expand bits).take (8 * (3 * bits.length / 8)) :=
    List.take_append_of_le_length (by rw [expand_length]; omega)
  rw [encodeBits, encodeBits, ← pack_take, ← pack_take, symbolStream_eq, symbolStream_eq, expand_append,
    List.append_assoc, hprefix, hprefix]

/-! ## The test aid `decode` (R87) -/

theorem decodeUnits_sym_append (b : LogicalBit) (rest : List LineUnit) :
    decodeUnits (sym b ++ rest) = b :: decodeUnits rest := by
  cases b <;> simp [sym, decodeUnits]

/-- Filler is no symbol: the loop ends there. -/
theorem decodeUnits_replicate_false (n : Nat) : decodeUnits (List.replicate n false) = [] := by
  match n with
  | 0 | 1 | 2 => rfl
  | n + 3 => simp [List.replicate_succ, decodeUnits, sym]

theorem decodeUnits_expand_append (bits : List LogicalBit) (n : Nat) :
    decodeUnits (expand bits ++ List.replicate n false) = bits := by
  induction bits with
  | nil => exact decodeUnits_replicate_false n
  | cons b bits ih =>
    rw [expand_cons, List.append_assoc, decodeUnits_sym_append, ih]

theorem decodeLoop_encodeBits (bits : List LogicalBit) : decodeLoop (encodeBits bits) = bits := by
  rw [decodeLoop, flatMap_unitsOfByte_encodeBits, symbolStream_eq, decodeUnits_expand_append]

/-- Settles O43: unpacking gives the stream back, whose symbols the loop reads up to the filler. -/
theorem decodeRecoversTheBits : Obligations.DecodeRecoversTheBits := by
  refine ⟨fun bits => ?_, fun a b hab => ?_⟩
  · rw [decodeBuffer, decodeLoop_encodeBits, if_pos rfl]
  · rw [← decodeLoop_encodeBits a, hab, decodeLoop_encodeBits]

/-! ## The units of a state (10_state.md R20 I-3) -/

/-- The unit shifted in is the last of those pending. -/
theorem pendingUnits_shiftIn (acc : BitVec 8) (u : LineUnit) {n : Nat} (hn : n ≤ 7) :
    pendingUnits (shiftIn acc u) (n + 1) = pendingUnits acc n ++ [u] := by
  rw [shiftIn_eq_shiftConcat]
  induction n with
  | zero => simp [pendingUnits]
  | succ n ih =>
    have hbit : (acc.shiftConcat u).getLsbD (n + 1) = acc.getLsbD n := by
      rw [BitVec.getLsbD_shiftConcat, decide_eq_true (by omega)]
      rfl
    rw [pendingUnits, hbit, ih (Nat.le_of_succ_le hn), pendingUnits, List.cons_append]

theorem unitsOfByte_eq_pendingUnits (v : Byte) : unitsOfByte v = pendingUnits v 8 := rfl

/-- A byte written at `LEN` and counted is the buffer's last. -/
theorem bufferOf_of_write {s t : State} {v : Byte} (hout : t.out = s.out.write s.len v) (hlen : t.len = s.len + 1) :
    bufferOf t = bufferOf s ++ [v] := by
  have hbelow : (List.range s.len).filterMap (fun i => t.out.read i) = bufferOf s :=
    List.filterMap_congr fun i hi => by
      rw [hout, Memory.read_write_other _ _ (List.mem_range.mp hi).ne]
  rw [bufferOf, hlen, List.range_succ, List.filterMap_append, hbelow]
  simp [hout]

/-- `push_unit` adds its unit at the end of the units the state holds, written or pending. -/
theorem emittedUnits_pushUnit (u : LineUnit) (s : State) : emittedUnits (pushUnit u s) = emittedUnits s ++ [u] := by
  have hcnt : s.cnt.toNat ≤ 7 := Nat.le_of_lt_succ s.cnt.isLt
  rcases pushUnit_cases u s with ⟨-, hout, hlen, hacc, hcnt'⟩ | ⟨h7, hout, hlen, hacc, hcnt'⟩
  · have hbuffer : bufferOf (pushUnit u s) = bufferOf s := by rw [bufferOf, hout, hlen, bufferOf]
    rw [emittedUnits, hbuffer, hacc, hcnt', pendingUnits_shiftIn s.acc u hcnt, emittedUnits, List.append_assoc]
  · have hpending : pendingUnits (pushUnit u s).acc (pushUnit u s).cnt.toNat = [] := by rw [hcnt']; rfl
    rw [emittedUnits, bufferOf_of_write hout hlen, hpending, List.append_nil, List.flatMap_append,
      List.flatMap_singleton, unitsOfByte_eq_pendingUnits (shiftIn s.acc u), pendingUnits_shiftIn s.acc u le_rfl,
      emittedUnits, h7, List.append_assoc]

theorem emittedUnits_pushUnits (us : List LineUnit) (s : State) :
    emittedUnits (pushUnits us s) = emittedUnits s ++ us := by
  induction us generalizing s with
  | nil => simp
  | cons u us ih => rw [pushUnits_cons, ih, emittedUnits_pushUnit, List.append_assoc, List.singleton_append]

/-! ## The stream invariant -/

theorem streamInv_freshFrame (s : State) : StreamInv [] (freshFrame s) where
  state := stateInv_freshFrame s
  accepted := rfl
  stream := fun _ => rfl
  produced := fun h => by cases h

/-- A frame that is over keeps its bits; a failed one holds no units of them. -/
theorem streamInv_raiseInvalidInput {bits : List LogicalBit} {s : State} (hs : StreamInv bits s) {c : CharCode}
    (hc : validChar c = false) : StreamInv bits (raiseInvalidInput c s.pos s) where
  state := stateInv_raiseInvalidInput hs.state hc
  accepted := hs.accepted
  stream := fun h => by cases h
  produced := fun h => by cases h

theorem streamInv_acceptBitClosed {bits : List LogicalBit} {s : State} (hs : StreamInv bits s) (hopen : s.st = .OPEN)
    (room : atCapacity s = false) (b : LogicalBit) : StreamInv (bits ++ [b]) (acceptBitClosed b s) where
  state := stateInv_acceptBitClosed hs.state hopen room b
  accepted := by simp [hs.accepted]
  stream := fun _ => by
    have hsame : emittedUnits (acceptBitClosed b s) = emittedUnits (pushUnits (sym b) s) := by
      rw [← pushUnits_sym_eq_closed]
      rfl
    rw [hsame, emittedUnits_pushUnits, hs.stream hopen, expand_append]
    simp [expand]
  produced := fun h => by simp [hopen] at h

/-- The bytes of the produced buffer are the packed stream: its units are those of the accepted bits and the filler. -/
theorem bufferOf_endClosed {bits : List LogicalBit} {s : State} (hs : StreamInv bits s) (hopen : s.st = .OPEN) :
    bufferOf (endClosed s) = encodeBits bits := by
  have hfill : fillerCount s = (8 - 3 * bits.length % 8) % 8 := by
    rw [hs.accepted]
    exact (fillerCountFollowsTheLength s hs.state hopen).1
  have hunits : emittedUnits (endClosed s) = symbolStream bits := by
    have hsame : emittedUnits (endClosed s) = emittedUnits (pushUnits (List.replicate (fillerCount s) false) s) := by
      rw [← pushUnits_filler_eq_closed]
      rfl
    rw [hsame, emittedUnits_pushUnits, hs.stream hopen, hfill, symbolStream_eq]
  have hpending : pendingUnits (endClosed s).acc (endClosed s).cnt.toNat = [] := by
    rw [(hs.state.endClosed_registers hopen).1]
    rfl
  rw [emittedUnits, hpending, List.append_nil] at hunits
  rw [← pack_flatMap_unitsOfByte (bufferOf (endClosed s)), hunits, encodeBits]

theorem streamInv_endClosed {bits : List LogicalBit} {s : State} (hs : StreamInv bits s) (hopen : s.st = .OPEN) :
    StreamInv bits (endClosed s) where
  state := stateInv_endClosed hs.state hopen
  accepted := by rw [endClosed_pos, hs.accepted]
  stream := fun h => by simp at h
  produced := fun _ => bufferOf_endClosed hs hopen

theorem streamInv_acceptBit {bits : List LogicalBit} {b : LogicalBit} {s t : State} (hs : StreamInv bits s)
    (h : acceptBit b s = .next t) : StreamInv (if s.st = .OPEN then bits ++ [b] else bits) t := by
  rcases acceptBit_next_cases h with ⟨hopen, room, rfl⟩ | ⟨hopen, rfl⟩
  · rw [if_pos hopen, pushUnits_sym_eq_closed]
    exact streamInv_acceptBitClosed hs hopen room b
  · rwa [if_neg hopen]

/-- Settles O31: `push_unit` appends to the units the state holds, so a symbol is three units more and END leaves the
padded stream, packed. -/
theorem everyStepKeepsTheStreamInvariant : Obligations.EveryStepKeepsTheStreamInvariant := by
  intro bits x s t hs h
  rcases perform_next_cases h with ⟨rfl, rfl⟩ | ⟨w, rfl, hexec⟩
  · exact streamInv_freshFrame s
  · have hwf := (decode_wellFormed_and_encode w).1
    cases hi : decode w with
    | bit0 =>
      rw [hi] at hexec
      simpa only [acceptedAfter, hi] using streamInv_acceptBit hs hexec
    | bit1 =>
      rw [hi] at hexec
      simpa only [acceptedAfter, hi] using streamInv_acceptBit hs hexec
    | badChar c =>
      rw [hi] at hexec hwf
      simp only [acceptedAfter, hi]
      rcases execBadChar_next_cases hexec with ⟨-, rfl⟩ | ⟨-, rfl⟩
      · exact streamInv_raiseInvalidInput hs (by simpa [Instr.wellFormed] using hwf)
      · exact hs
    | endFrame =>
      rw [hi] at hexec
      simp only [acceptedAfter, hi]
      rcases execEnd_next_cases hexec with ⟨hopen, rfl⟩ | ⟨-, rfl⟩
      · rw [pushUnits_filler_eq_closed]
        exact streamInv_endClosed hs hopen
      · exact hs
    | start =>
      rw [hi] at hexec
      cases hexec
      simpa only [acceptedAfter, hi] using streamInv_freshFrame s
    | reserved ch =>
      rw [hi] at hexec
      cases hexec

theorem freshFrame_resetWith (c : Config) (xs : List Input) : freshFrame (resetWith c xs) = resetWith c xs := rfl

/-- Settles O29: the state after reset is a fresh frame. -/
theorem resetMeetsTheInvariants : Obligations.ResetMeetsTheInvariants := by
  intro c xs
  rw [← freshFrame_resetWith]
  exact ⟨stateInv_freshFrame _, streamInv_freshFrame _⟩

end Sys2Proof.Machine

/-! The complete behaviour of an instruction (42_frame_control.md R93), the errors (60_exceptions.md R152), the readers'
table (10_state.md R22) and the widths of the registers (00_scope.md R7). -/

namespace Sys2Proof.Machine

/-! ## Refusals and faults -/

theorem acceptBit_eq_refused_iff {b : LogicalBit} {s : State} {r : Refusal} :
    acceptBit b s = .refused r ↔ s.st = .OPEN ∧ s.cfg.lmax = some s.pos ∧ r = .capacityExceeded := by
  by_cases hopen : s.st = .OPEN
  · by_cases full : s.cfg.lmax = some s.pos
    · simp [acceptBit_of_full b hopen full, hopen, full, @eq_comm _ r]
    · simp [acceptBit_of_open b hopen ((atCapacity_eq_false_iff s).mpr full), full]
  · simp [acceptBit_of_not_open b hopen, hopen]

theorem acceptBit_ne_fault (b : LogicalBit) (s : State) (f : Fault) : acceptBit b s ≠ .fault f := by
  by_cases hopen : s.st = .OPEN
  · by_cases full : s.cfg.lmax = some s.pos
    · simp [acceptBit_of_full b hopen full]
    · simp [acceptBit_of_open b hopen ((atCapacity_eq_false_iff s).mpr full)]
  · simp [acceptBit_of_not_open b hopen]

/-- An outcome that is a next state is neither a refusal nor a fault. -/
theorem answersNext.ne_refused {o : Host.Outcome State Fault Refusal} (h : answersNext o) (r : Refusal) :
    o ≠ .refused r := by
  obtain ⟨t, rfl⟩ := h
  simp

theorem answersNext.ne_fault {o : Host.Outcome State Fault Refusal} (h : answersNext o) (f : Fault) :
    o ≠ .fault f := by
  obtain ⟨t, rfl⟩ := h
  simp

/-- Exactly the reserved words and the characters past the capacity are refused. -/
theorem exec_eq_refused_iff {i : Instr} {s : State} {r : Refusal} :
    exec i s = .refused r ↔ (∃ ch, i = .reserved ch ∧ r = .reservedCommand ch) ∨
      ((i = .bit0 ∨ i = .bit1) ∧ s.st = .OPEN ∧ s.cfg.lmax = some s.pos ∧ r = .capacityExceeded) := by
  cases i with
  | bit0 => simp [acceptBit_eq_refused_iff]
  | bit1 => simp [acceptBit_eq_refused_iff]
  | badChar c => simp [(execBadChar_answersNext c s).ne_refused r]
  | endFrame => simp [(execEnd_answersNext s).ne_refused r]
  | start => simp
  | reserved ch => simp [@eq_comm _ r]

theorem exec_ne_fault (i : Instr) (s : State) (f : Fault) : exec i s ≠ .fault f := by
  cases i with
  | bit0 => exact acceptBit_ne_fault false s f
  | bit1 => exact acceptBit_ne_fault true s f
  | badChar c => exact (execBadChar_answersNext c s).ne_fault f
  | endFrame => exact (execEnd_answersNext s).ne_fault f
  | start => simp
  | reserved ch => simp

theorem perform_ne_fault (x : Input) (s : State) (f : Fault) : perform x s ≠ .fault f := by
  cases x with
  | command w => exact exec_ne_fault (decode w) s f
  | reset => simp

/-- START leaves every state that is not open. -/
theorem exec_start_ne_self {s : State} (h : s.st ≠ .OPEN) : exec .start s ≠ .next s := fun hself =>
  h (congrArg State.st (Host.Outcome.next.inj hself)).symm

/-- Settles O19: one row of the table for each way an instruction answers. -/
theorem transitionTableIsComplete : Obligations.TransitionTableIsComplete := by
  refine fun i s => ⟨fun t h => ?_, fun r => exec_eq_refused_iff, exec_ne_fault i s⟩
  rcases exec_next_closed_cases h with ⟨rfl, hst⟩ | ⟨b, hb, hopen, -, rfl⟩ | ⟨rfl, hopen, rfl⟩ | ⟨c, rfl, hopen, rfl⟩ |
    ⟨rfl, rfl⟩
  · cases i with
    | start => exact absurd h (exec_start_ne_self hst)
    | bit0 | bit1 | badChar c | endFrame | reserved ch => cases hs : t.st <;> simp_all
  · rcases hb with ⟨rfl, rfl⟩ | ⟨rfl, rfl⟩ <;> simp [hopen]
  · simp [hopen]
  · simp [hopen]
  · cases s.st <;> simp

/-! ## The one error of the LCE (60_exceptions.md R152, R155) -/

/-- Of the answers of an instruction only the failure entry leads to FAILED, and only it and a fresh frame write the
error registers. -/
theorem exec_errors {i : Instr} {s t : State} (h : exec i s = .next t) :
    ((s.st ≠ .FAILED ∧ t.st = .FAILED) ↔ (s.st = .OPEN ∧ ∃ c, i = .badChar c)) ∧
    (∀ c, i = .badChar c → s.st = .OPEN → t.errCode = 1#3 ∧ t.errChar = c ∧ t.errPos = s.pos) ∧
    (¬ (t.errCode = s.errCode ∧ t.errChar = s.errChar ∧ t.errPos = s.errPos) →
      i = .start ∨ (s.st = .OPEN ∧ t.st = .FAILED)) := by
  rcases exec_next_closed_cases h with ⟨rfl, hst⟩ | ⟨b, hb, hopen, -, rfl⟩ | ⟨rfl, hopen, rfl⟩ | ⟨c, rfl, hopen, rfl⟩ |
    ⟨rfl, rfl⟩
  · simp [hst]
  · rcases hb with ⟨-, rfl⟩ | ⟨-, rfl⟩ <;> simp [hopen]
  · simp [hopen]
  · simp [hopen]
  · simp

theorem opensFrame_command_iff {w : CmdWord} : opensFrame (.command w) = true ↔ decode w = .start := by
  simp [opensFrame]

/-- Settles O20: `exec_errors` for the decoded word; reset reaches no FAILED. -/
theorem onlyBadCharInOpenRaisesTheError : Obligations.OnlyBadCharInOpenRaisesTheError := by
  refine ⟨fun x s t h => ?_, rfl, rfl⟩
  rcases perform_next_cases h with ⟨rfl, rfl⟩ | ⟨w, rfl, hexec⟩
  · simp [opensFrame]
  · obtain ⟨hfails, hrecords, hwrites⟩ := exec_errors hexec
    refine ⟨by simpa using hfails, ?_, by rwa [opensFrame_command_iff]⟩
    rintro w c ⟨⟩ hi hopen
    exact hrecords c hi hopen

/-! ## The readers' columns (10_state.md R22) -/

theorem producerRead_isValue_iff {it : Item} {s : State} : (∃ v, producerRead it s = .value v) ↔ it = .ST := by
  cases it <;> simp [producerRead]

/-- I-7 gives exactly the cells below `LEN` a value. -/
theorem StateInv.memRead_isValue_iff {s : State} (hs : StateInv s) {i : Nat} :
    (∃ v, memRead i s = .value v) ↔ s.st = .DONE ∧ i < s.len := by
  constructor
  · rintro ⟨v, hv⟩
    by_contra hno
    rw [memRead_refused (by rwa [not_and_or, not_lt] at hno)] at hv
    cases hv
  · rintro ⟨hst, hi⟩
    obtain ⟨v, hv⟩ := hs.read_of_lt hi
    exact ⟨v, memRead_of_read hst hi hv⟩

theorem consumerRead_OUT_isValue_iff {i : Nat} {s : State} :
    (∃ v, consumerRead (.OUT i) s = .value v) ↔ ∃ v, memRead i s = .value v := by
  cases h : memRead i s <;> simp [consumerRead, h]

theorem StateInv.consumerRead_isValue_iff {s : State} (hs : StateInv s) {it : Item} :
    (∃ v, consumerRead it s = .value v) ↔
      (it = .ST ∨ (it = .LEN ∧ s.st = .DONE) ∨ (∃ i, it = .OUT i ∧ s.st = .DONE ∧ i < s.len) ∨
        ((it = .ERRCODE ∨ it = .ERRCHAR ∨ it = .ERRPOS) ∧ s.st = .FAILED)) := by
  cases it with
  | ST => simp [consumerRead]
  | OUT i => simp [consumerRead_OUT_isValue_iff, hs.memRead_isValue_iff]
  | LEN => by_cases h : s.st = .DONE <;> simp [consumerRead, h]
  | ERRCODE | ERRCHAR | ERRPOS => by_cases h : s.st = .FAILED <;> simp [consumerRead, h]
  | POS | ACC | CNT => simp [consumerRead]

/-- Settles O27: item by item. -/
theorem readAccessFollowsTheTable : Obligations.ReadAccessFollowsTheTable :=
  fun _ hs => ⟨fun _ => producerRead_isValue_iff, fun _ => hs.consumerRead_isValue_iff⟩

/-! ## The widths (00_scope.md R7, 20_memory.md R40) -/

theorem ceilLog2From_eq_clog {n fuel k : Nat} (hk : k ≤ Nat.clog 2 n) (hfuel : Nat.clog 2 n ≤ k + fuel) :
    Config.ceilLog2From n fuel k = Nat.clog 2 n := by
  induction fuel generalizing k with
  | zero => exact le_antisymm hk hfuel
  | succ fuel ih =>
    rw [Config.ceilLog2From]
    split_ifs with hle
    · exact le_antisymm hk (Nat.clog_le_of_le_pow hle)
    · exact ih ((Nat.lt_clog_iff_pow_lt one_lt_two).mpr (not_le.mp hle)) (by omega)

theorem ceilLog2_eq_clog (n : Nat) : Config.ceilLog2 n = Nat.clog 2 n :=
  ceilLog2From_eq_clog (Nat.zero_le _) (by
    rw [Nat.zero_add]
    exact Nat.clog_le_of_le_pow Nat.lt_two_pow_self.le)

/-- `PW` is the width that holds `LMAX`, and no smaller one does. -/
theorem ceilLog2_succ_le_iff {l j : Nat} : Config.ceilLog2 (l + 1) ≤ j ↔ l < 2 ^ j := by
  rw [ceilLog2_eq_clog, Nat.clog_le_iff_le_pow one_lt_two, Nat.succ_le_iff]

/-- I-2 and I-4: a frame of `POS` bits holds at most `ceil(3*POS/8)` bytes. -/
theorem StateInv.len_le {s : State} (hs : StateInv s) : s.len ≤ (3 * s.pos + 7) / 8 := by
  have hstatus := hs.status
  rw [statusInv] at hstatus
  cases hst : s.st with
  | OPEN =>
    have hunits := hs.units_of_open hst
    omega
  | DONE =>
    rw [hst] at hstatus
    obtain ⟨-, -, hlen, -⟩ := hstatus
    exact hlen.le
  | FAILED =>
    rw [hst] at hstatus
    obtain ⟨-, hlen, -⟩ := hstatus
    omega

/-- I-5 and I-6: `ERRPOS` is `POS` or 0. -/
theorem StateInv.errPos_le {s : State} (hs : StateInv s) : s.errPos ≤ s.pos := by
  have hstatus := hs.status
  rw [statusInv] at hstatus
  cases hst : s.st with
  | OPEN =>
    obtain ⟨-, -, herr⟩ := hs.noError_of_open hst
    omega
  | DONE =>
    rw [hst] at hstatus
    obtain ⟨-, -, -, -, -, herr⟩ := hstatus
    omega
  | FAILED =>
    rw [hst] at hstatus
    obtain ⟨-, -, -, -, -, herr, -⟩ := hstatus
    exact herr.le

/-- Settles O33: all three registers are at most `LMAX`, of which `PW` is the width. -/
theorem positionRegistersFitTheirWidth : Obligations.PositionRegistersFitTheirWidth := by
  intro s l k hs hl hk
  obtain rfl : Config.ceilLog2 (l + 1) = k := by simpa [Config.pw, hl] using hk
  have hwidth : l < 2 ^ Config.ceilLog2 (l + 1) := ceilLog2_succ_le_iff.mp le_rfl
  have hpos := hs.capacity l hl
  have hlen := hs.len_le
  have herr := hs.errPos_le
  exact ⟨by omega, by omega, by omega, hwidth, fun j => ceilLog2_succ_le_iff.mpr, by omega⟩

end Sys2Proof.Machine

/-! Frames: what a list of inputs does, the first invalid character (41_byte_packer.md R85, 60_exceptions.md R153) and
the frame theorem (42_frame_control.md R96). -/

namespace Sys2Proof.Machine

/-! ## The first invalid character -/

theorem firstInvalid_cons_of_valid {c : CharCode} (hc : validChar c = true) (k : Nat) (cs : List CharCode) :
    firstInvalid k (c :: cs) = firstInvalid (k + 1) cs := by
  rcases validChar_iff.mp hc with rfl | rfl <;> simp [firstInvalid]

theorem firstInvalid_cons_of_invalid {c : CharCode} (hc : validChar c = false) (k : Nat) (cs : List CharCode) :
    firstInvalid k (c :: cs) = some (c, k) := by
  rw [firstInvalid, if_pos (validChar_eq_false_iff.mp hc)]

theorem firstInvalid_append_of_valid {before : List CharCode} (hb : before.all validChar = true) (k : Nat)
    (rest : List CharCode) : firstInvalid k (before ++ rest) = firstInvalid (k + before.length) rest := by
  induction before generalizing k with
  | nil => rfl
  | cons c before ih =>
    obtain ⟨hc, hb⟩ : validChar c = true ∧ before.all validChar = true := by simpa using hb
    rw [List.cons_append, firstInvalid_cons_of_valid hc, ih hb, List.length_cons, Nat.add_assoc, Nat.add_comm 1]

/-- A string either is valid or has a first invalid character. -/
theorem valid_or_exists_firstInvalid (s : List CharCode) :
    s.all validChar = true ∨
      ∃ before c after, s = before ++ c :: after ∧ before.all validChar = true ∧ validChar c = false := by
  induction s with
  | nil => exact .inl rfl
  | cons c s ih =>
    cases hc : validChar c with
    | false => exact .inr ⟨[], c, s, rfl, rfl, hc⟩
    | true =>
      rcases ih with hs | ⟨before, d, after, rfl, hb, hd⟩
      · exact .inl (by simp [hc, hs])
      · exact .inr ⟨c :: before, d, after, rfl, by simp [hc, hb], hd⟩

theorem encodeStr_of_valid {s : List CharCode} (h : s.all validChar = true) :
    encodeStr s = .packedBuffer (encodeBits (s.map bitOfChar)) := by
  have hnone : firstInvalid 0 s = none := by simpa [firstInvalid] using firstInvalid_append_of_valid h 0 []
  rw [encodeStr, hnone]

theorem encodeStr_of_invalid {before after : List CharCode} {c : CharCode} (hb : before.all validChar = true)
    (hc : validChar c = false) : encodeStr (before ++ c :: after) = .invalidInputError c before.length := by
  rw [encodeStr, firstInvalid_append_of_valid hb, firstInvalid_cons_of_invalid hc, Nat.zero_add]

/-- The least invalid index splits the string. -/
theorem split_at_least_invalid {s : List CharCode} {c : CharCode} {i : Nat} (hi : s[i]? = some c)
    (hleast : ∀ j d, j < i → s[j]? = some d → validChar d = true) :
    s = s.take i ++ c :: s.drop (i + 1) ∧ (s.take i).all validChar = true ∧ (s.take i).length = i := by
  obtain ⟨hlt, rfl⟩ := List.getElem?_eq_some_iff.mp hi
  refine ⟨by rw [← List.drop_eq_getElem_cons hlt, List.take_append_drop], List.all_eq_true.mpr fun d hd => ?_,
    List.length_take_of_le hlt.le⟩
  obtain ⟨j, hj, rfl⟩ := List.mem_iff_getElem.mp hd
  have hji : j < i := hj.trans_le (List.length_take_le ..)
  exact hleast j _ hji (by simp)

theorem encodeStr_eq_invalidInputError_iff {s : List CharCode} {c : CharCode} {i : Nat} :
    encodeStr s = .invalidInputError c i ↔
      s[i]? = some c ∧ validChar c = false ∧ ∀ j d, j < i → s[j]? = some d → validChar d = true := by
  constructor
  · intro h
    rcases valid_or_exists_firstInvalid s with hs | ⟨before, d, after, rfl, hb, hd⟩
    · rw [encodeStr_of_valid hs] at h
      cases h
    · rw [encodeStr_of_invalid hb hd] at h
      cases h
      refine ⟨by simp, hd, fun j e hj he => ?_⟩
      rw [List.getElem?_append_left hj] at he
      exact List.all_eq_true.mp hb e (List.mem_of_getElem? he)
  · rintro ⟨hi, hc, hleast⟩
    obtain ⟨hsplit, hb, hlen⟩ := split_at_least_invalid hi hleast
    rw [hsplit, encodeStr_of_invalid hb hc, hlen]

/-- Settles O44: the string splits at its first invalid character, or has none. -/
theorem encodeStrReportsTheFirstInvalid : Obligations.EncodeStrReportsTheFirstInvalid := by
  refine fun s => ⟨fun c i => encodeStr_eq_invalidInputError_iff, fun hs => ⟨encodeStr_of_valid hs, ?_⟩⟩
  rw [List.map_map]
  have hid : s.map (charOfBit ∘ bitOfChar) = s.map id :=
    List.map_congr_left fun c hc => charOfBit_bitOfChar (List.all_eq_true.mp hs c hc)
  rw [hid, List.map_id]

/-! ## Lists of inputs -/

section inputs
variable {x : Input} {xs ys : List Input} {s t : State}

theorem performAll_cons_of_next (h : perform x s = .next t) : performAll (x :: xs) s = performAll xs t := by
  rw [performAll, h]

theorem performAll_cons_eq_next_iff :
    performAll (x :: xs) s = .next t ↔ ∃ u, perform x s = .next u ∧ performAll xs u = .next t := by
  rw [performAll]
  cases perform x s <;> simp

theorem performAll_append_eq_next_iff :
    performAll (xs ++ ys) s = .next t ↔ ∃ u, performAll xs s = .next u ∧ performAll ys u = .next t := by
  induction xs generalizing s with
  | nil => simp [performAll]
  | cons x xs ih =>
    simp only [List.cons_append, performAll_cons_eq_next_iff, ih]
    constructor
    · rintro ⟨u, hx, v, hxs, hys⟩
      exact ⟨v, ⟨u, hx, hxs⟩, hys⟩
    · rintro ⟨v, ⟨u, hx, hxs⟩, hys⟩
      exact ⟨u, hx, v, hxs, hys⟩

theorem performAll_ne_fault (f : Fault) : performAll xs s ≠ .fault f := by
  induction xs generalizing s with
  | nil => simp [performAll]
  | cons x xs ih =>
    rw [performAll]
    cases h : perform x s with
    | next u => exact ih
    | fault g => exact absurd h (perform_ne_fault x s g)
    | refused r => simp

end inputs

/-! ## The inputs to come take no part in what an input does (10_state.md R21) -/

section withInputs
variable {s t : State} (ys : List Input)

theorem pushUnits_withInputs (us : List LineUnit) (s : State) :
    pushUnits us (withInputs s ys) = withInputs (pushUnits us s) ys := by
  have hone (u : LineUnit) (s : State) : pushUnit u (withInputs s ys) = withInputs (pushUnit u s) ys := by
    by_cases h : s.cnt.toNat = 7
    · rw [pushUnit_eighth h, pushUnit_eighth (s := withInputs s ys) h]
      rfl
    · rw [pushUnit_pending h, pushUnit_pending (s := withInputs s ys) h]
      rfl
  induction us generalizing s with
  | nil => rfl
  | cons u us ih => rw [pushUnits_cons, hone, ih, pushUnits_cons]

theorem acceptBit_withInputs {b : LogicalBit} (h : acceptBit b s = .next t) :
    acceptBit b (withInputs s ys) = .next (withInputs t ys) := by
  rcases acceptBit_next_cases h with ⟨hopen, room, rfl⟩ | ⟨hopen, rfl⟩
  · rw [acceptBit_of_open b (s := withInputs s ys) hopen room, pushUnits_withInputs]
    rfl
  · exact acceptBit_of_not_open b hopen

theorem exec_withInputs {i : Instr} (h : exec i s = .next t) :
    exec i (withInputs s ys) = .next (withInputs t ys) := by
  cases i with
  | bit0 => exact acceptBit_withInputs ys h
  | bit1 => exact acceptBit_withInputs ys h
  | badChar c =>
    rcases execBadChar_next_cases h with ⟨hopen, rfl⟩ | ⟨hopen, rfl⟩
    · exact execBadChar_of_open c hopen
    · exact execBadChar_of_not_open c hopen
  | endFrame =>
    rcases execEnd_next_cases h with ⟨hopen, rfl⟩ | ⟨hopen, rfl⟩
    · rw [exec_endFrame, execEnd_of_open (s := withInputs s ys) hopen, pushUnits_withInputs]
      rfl
    · exact execEnd_of_not_open hopen
  | start =>
    cases h
    rfl
  | reserved ch => cases h

theorem perform_withInputs {x : Input} (h : perform x s = .next t) :
    perform x (withInputs s ys) = .next (withInputs t ys) := by
  rcases perform_next_cases h with ⟨rfl, rfl⟩ | ⟨w, rfl, hexec⟩
  · rfl
  · exact exec_withInputs ys hexec

/-- The machine that has the inputs in its list performs them one by one. -/
theorem runSteps_of_performAll {xs : List Input} (h : performAll xs s = .next t) :
    runSteps xs.length (withInputs s (xs ++ ys)) = .next (withInputs t ys) := by
  induction xs generalizing s with
  | nil =>
    cases h
    rfl
  | cons x xs ih =>
    obtain ⟨u, hx, hxs⟩ := performAll_cons_eq_next_iff.mp h
    rw [List.length_cons, List.cons_append, runSteps_succ, perform_withInputs _ hx]
    exact ih hxs

theorem view_withInputs (s : State) : view (withInputs s ys) = view s := rfl

end withInputs

/-- Settles O37: START and reset leave a fresh frame, whose only items left open are the parameters and the
inputs to come. -/
theorem framesDependOnTheirCommandsOnly : Obligations.FramesDependOnTheirCommandsOnly := by
  intro s t k xs hcfg
  have hfresh : freshFrame (withInputs s xs) = freshFrame (withInputs t xs) := by simp [freshFrame, withInputs, hcfg]
  have hstart (u : State) : perform startInput (withInputs u xs) = .next (freshFrame (withInputs u xs)) := by
    rw [startInput, perform_command, decode_toWord]
    rfl
  exact ⟨by rw [runSteps_succ, runSteps_succ, hstart, hstart, hfresh],
    by rw [runSteps_succ, runSteps_succ, perform_reset, hstart, hfresh]⟩

/-! ## Characters -/

section chars
variable {c : CharCode} {cs : List CharCode} {bits : List LogicalBit} {s t : State}

theorem perform_charInput : perform (charInput c) s = exec (Command.char c).toInstr s := by
  rw [charInput, perform_command, decode_toWord]

theorem perform_charInput_of_valid (hc : validChar c = true) :
    perform (charInput c) s = acceptBit (bitOfChar c) s := by
  rw [perform_charInput]
  rcases validChar_iff.mp hc with rfl | rfl <;> rfl

theorem perform_charInput_of_invalid (hc : validChar c = false) : perform (charInput c) s = execBadChar c s := by
  rw [perform_charInput, char_toInstr_of_invalid hc, exec_badChar]

/-- A frame that is over absorbs the rest of its string (R91, R92). -/
theorem performAll_chars_of_not_open (h : s.st ≠ .OPEN) : performAll (cs.map charInput) s = .next s := by
  induction cs with
  | nil => rfl
  | cons c cs ih =>
    rw [List.map_cons, performAll_cons_of_next (perform_charInput.trans (exec_char_of_not_open c h)), ih]

theorem validBeforeInvalid_cons_of_valid (hc : validChar c = true) :
    validBeforeInvalid (c :: cs) = validBeforeInvalid cs + 1 := by
  simp [validBeforeInvalid, hc]

theorem validBeforeInvalid_of_valid (hcs : cs.all validChar = true) : validBeforeInvalid cs = cs.length := by
  rw [validBeforeInvalid, List.takeWhile_eq_self_iff.mpr (List.all_eq_true.mp hcs)]

/-- Characters that fit are all taken (R178): each valid one has room, and after an invalid one nothing is asked. -/
theorem performAll_chars_answersNext (room : ∀ l, s.cfg.lmax = some l → s.pos + validBeforeInvalid cs ≤ l) :
    answersNext (performAll (cs.map charInput) s) := by
  induction cs generalizing s with
  | nil => exact ⟨s, rfl⟩
  | cons c cs ih =>
    by_cases hopen : s.st = .OPEN
    · cases hc : validChar c with
      | true =>
        rw [validBeforeInvalid_cons_of_valid hc] at room
        have hroom : atCapacity s = false := (atCapacity_eq_false_iff s).mpr fun hl => by
          have := room _ hl
          omega
        have hstep := (perform_charInput_of_valid (s := s) hc).trans (acceptBit_of_open _ hopen hroom)
        rw [List.map_cons, performAll_cons_of_next hstep]
        refine ih fun l hl => ?_
        rw [pushUnits_cfg] at hl
        have := room l hl
        show s.pos + 1 + validBeforeInvalid cs ≤ l
        omega
      | false =>
        have hstep := (perform_charInput_of_invalid (s := s) hc).trans (execBadChar_of_open c hopen)
        rw [List.map_cons, performAll_cons_of_next hstep]
        exact ⟨_, performAll_chars_of_not_open (by simp)⟩
    · exact ⟨s, performAll_chars_of_not_open hopen⟩

/-- Valid characters leave the frame open and append their bits. -/
theorem streamInv_of_validChars (hs : StreamInv bits s) (hopen : s.st = .OPEN) (hcs : cs.all validChar = true)
    (h : performAll (cs.map charInput) s = .next t) : t.st = .OPEN ∧ StreamInv (bits ++ cs.map bitOfChar) t := by
  induction cs generalizing s bits with
  | nil =>
    cases h
    exact ⟨hopen, by simpa using hs⟩
  | cons c cs ih =>
    obtain ⟨hc, hcs⟩ : validChar c = true ∧ cs.all validChar = true := by simpa using hcs
    obtain ⟨u, hu, hrest⟩ := performAll_cons_eq_next_iff.mp h
    rw [perform_charInput_of_valid hc] at hu
    obtain ⟨hst, -⟩ := acceptBit_frame hu
    have hstream := streamInv_acceptBit hs hu
    rw [if_pos hopen] at hstream
    simpa using ih hstream (hst.trans hopen) hcs hrest

/-- The first invalid character fails the frame, with the character and its index. -/
theorem failed_of_invalidChar {before after : List CharCode} (hs : StreamInv bits s) (hopen : s.st = .OPEN)
    (hb : before.all validChar = true) (hc : validChar c = false)
    (h : performAll ((before ++ c :: after).map charInput) s = .next t) :
    t.st = .FAILED ∧ t.errChar = c ∧ t.errPos = bits.length + before.length := by
  rw [List.map_append, performAll_append_eq_next_iff] at h
  obtain ⟨u, hu, hrest⟩ := h
  obtain ⟨huopen, hustream⟩ := streamInv_of_validChars hs hopen hb hu
  have hfail := (perform_charInput_of_invalid (s := u) hc).trans (execBadChar_of_open c huopen)
  rw [List.map_cons, performAll_cons_of_next hfail, performAll_chars_of_not_open (by simp)] at hrest
  cases hrest
  exact ⟨rfl, rfl, by simp [← hustream.accepted]⟩

end chars

/-! ## A whole frame (R88, R96) -/

section frame
variable {cs : List CharCode} {s t : State}

theorem perform_endInput : perform endInput s = execEnd s := by
  rw [endInput, perform_command, decode_toWord]
  rfl

theorem performAll_frameInputs_eq_next_iff :
    performAll (frameInputs cs) s = .next t ↔
      ∃ u, performAll (cs.map charInput) s = .next u ∧ execEnd u = .next t := by
  have hend (u : State) : performAll [endInput] u = .next t ↔ execEnd u = .next t := by
    rw [performAll_cons_eq_next_iff, perform_endInput]
    simp [performAll]
  simp only [frameInputs, performAll_append_eq_next_iff, hend]

theorem performAll_frameInputs_answersNext (room : ∀ l, s.cfg.lmax = some l → s.pos + validBeforeInvalid cs ≤ l) :
    answersNext (performAll (frameInputs cs) s) := by
  obtain ⟨u, hu⟩ := performAll_chars_answersNext room
  obtain ⟨t, ht⟩ := execEnd_answersNext u
  exact ⟨t, performAll_frameInputs_eq_next_iff.mpr ⟨u, hu, ht⟩⟩

/-- A frame of valid characters ends in DONE with their bits. -/
theorem done_of_validFrame (hs : StreamInv [] s) (hopen : s.st = .OPEN) (hcs : cs.all validChar = true)
    (h : performAll (frameInputs cs) s = .next t) : t.st = .DONE ∧ StreamInv (cs.map bitOfChar) t := by
  obtain ⟨u, hu, hend⟩ := performAll_frameInputs_eq_next_iff.mp h
  obtain ⟨huopen, hustream⟩ := streamInv_of_validChars hs hopen hcs hu
  rw [execEnd_eq_closed huopen] at hend
  cases hend
  exact ⟨endClosed_st u, streamInv_endClosed hustream huopen⟩

/-- The frame theorem: a frame that is taken to its end shows what `encode_str` gives. -/
theorem view_of_frame (hs : StreamInv [] s) (hopen : s.st = .OPEN) (h : performAll (frameInputs cs) s = .next t) :
    view t = (encodeStr cs).toView := by
  rcases valid_or_exists_firstInvalid cs with hcs | ⟨before, c, after, rfl, hb, hc⟩
  · obtain ⟨hdone, hstream⟩ := done_of_validFrame hs hopen hcs h
    rw [view_of_done hdone, hstream.produced hdone, encodeStr_of_valid hcs, EncodeResult.toView]
  · obtain ⟨u, hu, hend⟩ := performAll_frameInputs_eq_next_iff.mp h
    obtain ⟨hfailed, hchar, hpos⟩ := failed_of_invalidChar hs hopen hb hc hu
    rw [execEnd_of_not_open (by simp [hfailed])] at hend
    cases hend
    rw [view_of_failed hfailed, hchar, hpos, List.length_nil, Nat.zero_add, encodeStr_of_invalid hb hc,
      EncodeResult.toView]

theorem StateInv.len_of_done (hs : StateInv s) (h : s.st = .DONE) : s.len = (3 * s.pos + 7) / 8 := by
  have hstatus := hs.status
  rw [statusInv, h] at hstatus
  obtain ⟨-, -, hlen, -⟩ := hstatus
  exact hlen

theorem len_of_validFrame (hs : StreamInv [] s) (hopen : s.st = .OPEN) (hcs : cs.all validChar = true)
    (h : performAll (frameInputs cs) s = .next t) : t.len = (3 * cs.length + 7) / 8 := by
  obtain ⟨hdone, hstream⟩ := done_of_validFrame hs hopen hcs h
  rw [hstream.state.len_of_done hdone, ← hstream.accepted, List.length_map]

theorem streamInv_of_atResetValues (h : atResetValues s) : StreamInv [] s :=
  freshFrame_eq_self h ▸ streamInv_freshFrame s

theorem open_of_atResetValues (h : atResetValues s) : s.st = .OPEN := h.1

theorem pos_of_atResetValues (h : atResetValues s) : s.pos = 0 := by
  obtain ⟨-, -, -, hpos, -⟩ := h
  exact hpos

theorem room_of_atResetValues (h : atResetValues s) (hfits : fitsCapacity s.cfg cs) :
    ∀ l, s.cfg.lmax = some l → s.pos + validBeforeInvalid cs ≤ l := by
  rw [pos_of_atResetValues h, Nat.zero_add]
  exact hfits

/-- The run of a frame that fits, from a state at its reset values. -/
theorem runSteps_frame (h : atResetValues s) (hfits : fitsCapacity s.cfg cs) :
    ∃ t, performAll (frameInputs cs) s = .next t ∧
      runSteps (cs.length + 1) (withInputs s (frameInputs cs)) = .next (withInputs t []) := by
  obtain ⟨t, ht⟩ := performAll_frameInputs_answersNext (room_of_atResetValues h hfits)
  have hrun := runSteps_of_performAll [] ht
  rw [List.append_nil] at hrun
  exact ⟨t, ht, by simpa [frameInputs] using hrun⟩

end frame

/-- The part of the frame theorem that starts without START. -/
theorem frame_from_resetValues {cs : List CharCode} {s : State} (h : atResetValues s) (hfits : fitsCapacity s.cfg cs) :
    ∃ t, runSteps (cs.length + 1) (withInputs s (frameInputs cs)) = .next t ∧
      view t = (encodeStr cs).toView ∧ (cs.all validChar = true → t.len = (3 * cs.length + 7) / 8) := by
  obtain ⟨t, ht, hrun⟩ := runSteps_frame h hfits
  have hs := streamInv_of_atResetValues h
  have hopen := open_of_atResetValues h
  exact ⟨withInputs t [], hrun, (view_withInputs [] t).trans (view_of_frame hs hopen ht),
    fun hcs => (withInputs_len t []).trans (len_of_validFrame hs hopen hcs ht)⟩

/-- Settles O34: the characters before END decide the frame, and START first leaves a fresh one. -/
theorem frameComputesEncodeStr : Obligations.FrameComputesEncodeStr := by
  refine fun cs s hfits => ⟨?_, fun h => frame_from_resetValues h hfits⟩
  have hstart : perform startInput (withInputs s (frameInputs cs)) =
      .next (withInputs (freshFrame s) (frameInputs cs)) := by
    rw [startInput, perform_command, decode_toWord]
    rfl
  rw [runSteps_succ, hstart]
  exact frame_from_resetValues (freshFrame_atResetValues s) hfits

/-! ## Before END -/

theorem validBeforeInvalid_le_append (cs more : List CharCode) :
    validBeforeInvalid cs ≤ validBeforeInvalid (cs ++ more) := by
  rw [validBeforeInvalid, validBeforeInvalid, List.takeWhile_append]
  split_ifs with h
  · rw [h, List.length_append]
    exact Nat.le_add_right ..
  · exact le_rfl

theorem validBeforeInvalid_take_le (cs : List CharCode) (k : Nat) :
    validBeforeInvalid (cs.take k) ≤ validBeforeInvalid cs := by
  simpa using validBeforeInvalid_le_append (cs.take k) (cs.drop k)

/-- Settles O35: the first characters already decide the view that the whole string has. -/
theorem viewBeforeEndIsBusyOrFinal : Obligations.ViewBeforeEndIsBusyOrFinal := by
  intro cs k s hfits hk h
  have hs := streamInv_of_atResetValues h
  have hopen := open_of_atResetValues h
  have hfitsTake : fitsCapacity s.cfg (cs.take k) := fun l hl => (validBeforeInvalid_take_le cs k).trans (hfits l hl)
  obtain ⟨t, ht⟩ := performAll_chars_answersNext (room_of_atResetValues h hfitsTake)
  have hrun := runSteps_of_performAll ((cs.drop k).map charInput ++ [endInput]) ht
  have hinputs : (cs.take k).map charInput ++ ((cs.drop k).map charInput ++ [endInput]) = frameInputs cs := by
    rw [← List.append_assoc, ← List.map_append, List.take_append_drop, frameInputs]
  rw [hinputs, List.length_map, List.length_take_of_le hk] at hrun
  refine ⟨_, hrun, fun hvalid => ?_, fun hinvalid => ?_⟩
  · exact view_of_open (streamInv_of_validChars hs hopen hvalid ht).1
  · rcases valid_or_exists_firstInvalid (cs.take k) with hvalid | ⟨before, c, after, htake, hb, hc⟩
    · rw [hvalid] at hinvalid
      cases hinvalid
    · rw [htake] at ht
      obtain ⟨hfailed, hchar, hpos⟩ := failed_of_invalidChar hs hopen hb hc ht
      have hwhole : cs = before ++ c :: (after ++ cs.drop k) := by
        conv_lhs => rw [← List.take_append_drop k cs, htake, List.append_assoc, List.cons_append]
      refine ⟨?_, hfailed⟩
      rw [view_withInputs, view_of_failed hfailed, hchar, hpos, List.length_nil, Nat.zero_add, hwhole,
        encodeStr_of_invalid hb hc, EncodeResult.toView]

/-! ## The produced state (41_byte_packer.md R88) -/

theorem StateInv.read_eq_bufferOf_getElem? {s : State} (hs : StateInv s) (i : Nat) :
    s.out.read i = (bufferOf s)[i]? := by
  by_cases hi : i < (bufferOf s).length
  · rw [hs.read_eq_bufferOf_getElem hi, List.getElem?_eq_getElem hi]
  · rw [List.getElem?_eq_none (not_lt.mp hi), ← Option.not_isSome_iff_eq_none, hs.cells, ← hs.bufferOf_length]
    exact hi

theorem all_validChar_map_charOfBit (bits : List LogicalBit) : (bits.map charOfBit).all validChar = true := by
  simp

theorem map_bitOfChar_map_charOfBit (bits : List LogicalBit) : (bits.map charOfBit).map bitOfChar = bits := by
  simp [Function.comp_def]

/-- Settles O36: the frame of the bits' characters ends in DONE, where the invariants give every item. -/
theorem stepsAgreeWithEncode : Obligations.StepsAgreeWithEncode := by
  intro bits s h hfits
  have hvalid := all_validChar_map_charOfBit bits
  have hfitsChars : fitsCapacity s.cfg (bits.map charOfBit) := by
    simpa [fitsCapacity, validBeforeInvalid_of_valid hvalid] using hfits
  obtain ⟨t, ht, hrun⟩ := runSteps_frame h hfitsChars
  obtain ⟨hdone, hstream⟩ := done_of_validFrame (streamInv_of_atResetValues h) (open_of_atResetValues h) hvalid ht
  rw [map_bitOfChar_map_charOfBit] at hstream
  have hstatus := hstream.state.status
  rw [statusInv, hdone, ← hstream.accepted] at hstatus
  obtain ⟨hcnt, hacc, hlen, herr, -⟩ := hstatus
  have hbuffer := hstream.produced hdone
  rw [List.length_map] at hrun
  exact ⟨_, hrun, hdone, hlen, hbuffer, fun i => hbuffer ▸ hstream.state.read_eq_bufferOf_getElem? i,
    hstream.accepted.symm, hcnt, hacc, herr, rfl⟩

/-! ## What an open frame shows -/

theorem atResetValues_resetWith (c : Config) (xs : List Input) : atResetValues (resetWith c xs) :=
  freshFrame_resetWith c xs ▸ freshFrame_atResetValues _

theorem readItem_of_open {s : State} (h : s.st = .OPEN) (a : Agent) (it : Item) :
    readItem a it s = if it = .ST then .value (.frameState .OPEN) else .refused .readUnavailable := by
  by_cases hit : it = .ST
  · subst hit
    cases a <;> simp [readItem, producerRead, consumerRead, h]
  · rw [if_neg hit]
    cases a with
    | producer => cases it <;> simp_all [readItem, producerRead]
    | consumer => exact consumerRead_refused_of_open h hit

/-- Settles O28: valid characters leave the frame open, where every read's answer is fixed by the item alone. -/
theorem openFrameRevealsNothing : Obligations.OpenFrameRevealsNothing := by
  intro c xs ys hxs hys hfx hfy
  have hopens {cs : List CharCode} (hcs : cs.all validChar = true) (hfits : fitsCapacity c cs) :
      ∃ t, performAll (cs.map charInput) (resetWith c []) = .next t ∧ t.st = .OPEN := by
    have hreset := atResetValues_resetWith c []
    obtain ⟨t, ht⟩ := performAll_chars_answersNext (room_of_atResetValues hreset hfits)
    exact ⟨t, ht, (streamInv_of_validChars (streamInv_of_atResetValues hreset) rfl hcs ht).1⟩
  obtain ⟨s, hs, hsopen⟩ := hopens hxs hfx
  obtain ⟨t, ht, htopen⟩ := hopens hys hfy
  refine ⟨s, t, hs, ht, by rw [view_of_open hsopen, view_of_open htopen], fun a it => ?_⟩
  rw [readItem_of_open hsopen, readItem_of_open htopen]

end Sys2Proof.Machine

/-! A producer that keeps its duties (70_reset_and_hazards.md R173 to R178, 30_encoding.md R58). -/

namespace Sys2Proof.Machine

/-- What a producer at this stage knows of the state. -/
def Stage.Describes : Stage → State → Prop
  | .opened n, s => s.st = .OPEN ∧ s.pos = n
  | .failed, s => s.st ≠ .OPEN
  | .ended, s => s.st ≠ .OPEN

theorem ne_some_of_roomFor {c : Config} {n : Nat} (h : roomFor c n = true) : c.lmax ≠ some n := by
  intro hl
  simp [roomFor, hl] at h

section duties
variable {s : State} {n : Nat}

theorem acceptBit_of_roomFor (b : LogicalBit) (hs : (Stage.opened n).Describes s) (room : roomFor s.cfg n = true) :
    ∃ t, acceptBit b s = .next t ∧ (Stage.opened (n + 1)).Describes t := by
  obtain ⟨hopen, rfl⟩ := hs
  have hroom : atCapacity s = false := (atCapacity_eq_false_iff s).mpr (ne_some_of_roomFor room)
  exact ⟨_, acceptBit_of_open b hopen hroom, by simpa [Stage.Describes] using hopen⟩

theorem execBadChar_fails (c : CharCode) (hs : s.st = .OPEN) :
    ∃ t, execBadChar c s = .next t ∧ Stage.failed.Describes t :=
  ⟨_, execBadChar_of_open c hs, by simp [Stage.Describes]⟩

theorem execEnd_ends (s : State) : ∃ t, execEnd s = .next t ∧ Stage.ended.Describes t := by
  by_cases hopen : s.st = .OPEN
  · exact ⟨_, execEnd_of_open hopen, by simp [Stage.Describes]⟩
  · exact ⟨s, execEnd_of_not_open hopen, hopen⟩

end duties

/-- An input within the duties is performed and leads to the stage that the rest is judged from. -/
theorem disciplined_cons {c : Config} {g : Stage} {x : Input} {rest : List Input}
    (h : disciplined c g (x :: rest) = true) {s : State} (hs : g.Describes s) (hc : s.cfg = c) :
    ∃ g' t, disciplined c g' rest = true ∧ perform x s = .next t ∧ g'.Describes t := by
  subst hc
  cases x with
  | reset => exact ⟨.opened 0, freshFrame s, h, rfl, rfl, rfl⟩
  | command w =>
    rw [perform_command]
    cases hi : decode w with
    | start => exact ⟨.opened 0, freshFrame s, by simpa [disciplined, hi] using h, rfl, rfl, rfl⟩
    | reserved ch => simp [disciplined, hi] at h
    | endFrame =>
      cases g with
      | opened n => exact ⟨.ended, (execEnd_ends s).imp fun t ht => ⟨by simpa [disciplined, hi] using h, ht⟩⟩
      | failed => exact ⟨.ended, (execEnd_ends s).imp fun t ht => ⟨by simpa [disciplined, hi] using h, ht⟩⟩
      | ended => simp [disciplined, hi] at h
    | badChar ch =>
      cases g with
      | opened n =>
        exact ⟨.failed, (execBadChar_fails ch hs.1).imp fun t ht => ⟨by simpa [disciplined, hi] using h, ht⟩⟩
      | failed => exact ⟨.failed, s, by simpa [disciplined, hi] using h, execBadChar_of_not_open ch hs, hs⟩
      | ended => simp [disciplined, hi] at h
    | bit0 | bit1 =>
      cases g with
      | opened n =>
        obtain ⟨room, hrest⟩ : roomFor s.cfg n = true ∧ disciplined s.cfg (.opened (n + 1)) rest = true := by
          simpa [disciplined, hi] using h
        exact ⟨.opened (n + 1), (acceptBit_of_roomFor _ hs room).imp fun t ht => ⟨hrest, ht⟩⟩
      | failed => exact ⟨.failed, s, by simpa [disciplined, hi] using h, acceptBit_of_not_open _ hs, hs⟩
      | ended => simp [disciplined, hi] at h

theorem performAll_of_disciplined {g : Stage} {xs : List Input} {s : State} (hs : g.Describes s)
    (h : disciplined s.cfg g xs = true) : answersNext (performAll xs s) := by
  induction xs generalizing g s with
  | nil => exact ⟨s, rfl⟩
  | cons x rest ih =>
    obtain ⟨g', t, hrest, ht, hdescribes⟩ := disciplined_cons h hs rfl
    rw [performAll_cons_of_next ht]
    rw [← (perform_cfg_inputs ht).1] at hrest
    exact ih hdescribes hrest

/-- Settles O38: the producer's stage describes the state before every input. -/
theorem disciplinedProducerIsNeverRefused : Obligations.DisciplinedProducerIsNeverRefused :=
  fun _ _ h => performAll_of_disciplined (g := .opened 0) ⟨rfl, rfl⟩ h

end Sys2Proof.Machine

/-! What the divisor search guarantees of the rate (43_clock_divisor_reference.md R101, R105, R109). -/

namespace Sys2Proof.Machine

section rate
variable {q : DivisorQuery} {n m : Int}

/-- The tolerance test in integers is the relative bound in rational numbers (R105). -/
theorem abs_rate_sub_le (hden : 0 < q.tolDen) (hn : 0 < n) (hm : 0 < m)
    (h : |q.referenceFrequency - n * m * q.targetRate| * q.tolDen ≤ q.tolNum * (n * m * q.targetRate)) :
    |(q.referenceFrequency : ℚ) / (n * m) - q.targetRate| ≤ (q.tolNum : ℚ) / q.tolDen * q.targetRate := by
  have hnm : (0 : ℚ) < n * m := by positivity
  have hD : (0 : ℚ) < q.tolDen := mod_cast hden
  have hq : |(q.referenceFrequency : ℚ) - n * m * q.targetRate| * q.tolDen ≤ q.tolNum * (n * m * q.targetRate) :=
    mod_cast h
  have hdist : (q.referenceFrequency : ℚ) / (n * m) - q.targetRate =
      (q.referenceFrequency - n * m * q.targetRate) / (n * m) := by
    rw [sub_div, mul_div_cancel_left₀ _ hnm.ne']
  rw [hdist, abs_div, abs_of_pos hnm, div_mul_eq_mul_div, div_le_div_iff₀ hnm hD]
  linarith

theorem candidate_pos (hd : q.inDomain = true) (hn : n ∈ q.candidates) : 0 < n := by
  obtain ⟨-, -, hpow, -⟩ := inDomain_iff.mp hd
  obtain ⟨e, rfl⟩ := hpow n hn
  exact pow_pos two_pos e

/-- Settles O45: the returned candidate passed the tests of R103 and R105. -/
theorem returnedPairReproducesTheRate : Obligations.ReturnedPairReproducesTheRate := by
  intro q n m h
  obtain ⟨hd, hfind, rfl⟩ := divisorsFor_eq_next_iff.mp h
  obtain ⟨-, -, -, hlo, -, -, hden⟩ := inDomain_iff.mp hd
  have hn : n ∈ q.candidates := mem_ascending.mp (List.mem_of_find?_eq_some hfind)
  obtain ⟨hmLo, hmHi, htol⟩ := candidateFits_iff.mp (List.find?_some hfind)
  exact ⟨hn, hmLo, hmHi, abs_rate_sub_le hden (candidate_pos hd hn) (by omega) htol⟩

/-- In the domain the search answers a pair exactly when some candidate passes. -/
theorem exists_divisorsFor_eq_next_iff (hd : q.inDomain = true) :
    (∃ p, divisorsFor q = .next p) ↔ ∃ n ∈ q.candidates, candidateFits q n = true := by
  simp [Prod.exists, divisorsFor_eq_next_iff, hd, ← Option.isSome_iff_exists, List.find?_isSome]

/-- A factor that reproduces the rate exactly is the rounded one. -/
theorem roundedM_of_exact (hT : 0 < q.targetRate) (hn : 0 < n) (h : q.referenceFrequency = n * m * q.targetRate) :
    roundedM q n = m := by
  have hne : (n * q.targetRate : ℚ) ≠ 0 := by positivity
  have hquot : (q.referenceFrequency : ℚ) / (n * q.targetRate) = m := by
    rw [h, div_eq_iff hne]
    push_cast
    ring
  rw [roundedM_eq_round hT hn, hquot, round_intCast]

/-- With tolerance 0 a candidate passes exactly when its rounded factor is in the range and reproduces the rate. -/
theorem candidateFits_iff_of_tolNum_zero (hden : 0 < q.tolDen) (htol : q.tolNum = 0) :
    candidateFits q n = true ↔ q.mLo ≤ roundedM q n ∧ roundedM q n ≤ q.mHi ∧
      q.referenceFrequency = n * roundedM q n * q.targetRate := by
  have hzero (d : Int) : |d| * q.tolDen ≤ 0 ↔ d = 0 :=
    ⟨fun h => abs_nonpos_iff.mp (nonpos_of_mul_nonpos_left h hden), fun h => by simp [h]⟩
  rw [candidateFits_iff, htol, zero_mul, hzero, sub_eq_zero]

/-- Settles O48: an exact factor is the one the search tries. -/
theorem exactRateIsFoundWhenOneExists : Obligations.ExactRateIsFoundWhenOneExists := by
  intro q hd htol
  obtain ⟨hT, -, -, -, -, -, hden⟩ := inDomain_iff.mp hd
  rw [exists_divisorsFor_eq_next_iff hd]
  simp only [candidateFits_iff_of_tolNum_zero hden htol]
  refine exists_congr fun n => and_congr_right fun hn => ⟨fun h => ⟨_, h⟩, ?_⟩
  rintro ⟨m, hlo, hhi, hexact⟩
  obtain rfl := roundedM_of_exact hT (candidate_pos hd hn) hexact
  exact ⟨hlo, hhi, hexact⟩

end rate

/-! ## The reference case (R109) -/

/-- The reference case with the candidates left open. -/
def referenceQuery (candidates : List Int) : DivisorQuery :=
  { targetRate := 2500, referenceFrequency := 12000000, candidates := candidates, mLo := 1, mHi := 255 }

section reference
variable {candidates : List Int}

/-- A smaller power of two needs a factor of at least 300. -/
theorem roundedM_reference_of_lt {n : Int} (hpow : ∃ e : Nat, n = 2 ^ e) (hlt : n < 32) :
    255 < roundedM (referenceQuery candidates) n := by
  obtain ⟨e, rfl⟩ := hpow
  have he : e < 5 := (pow_lt_pow_iff_right₀ (one_lt_two (α := Int))).mp (by simpa using hlt)
  simp only [roundedM, referenceQuery]
  interval_cases e <;> norm_num

theorem roundedM_reference : roundedM (referenceQuery candidates) 32 = 150 := by
  norm_num [roundedM, referenceQuery]

theorem candidateFits_reference : candidateFits (referenceQuery candidates) 32 = true := by
  rw [candidateFits_iff, roundedM_reference]
  norm_num [referenceQuery]

/-- Settles O49: 32 is the least power of two whose factor is in the range, and its factor is exact. -/
theorem referenceCaseGives32And150 : Obligations.ReferenceCaseGives32And150 := by
  intro candidates h32 hpow
  have hpow : ∀ n ∈ candidates, ∃ e : Nat, n = 2 ^ e := fun n hn => isPowerOfTwo_iff.mp (List.all_eq_true.mp hpow n hn)
  have hd : (referenceQuery candidates).inDomain = true := inDomain_iff.mpr (by simpa [referenceQuery] using hpow)
  have hfind : (ascending candidates).find? (candidateFits (referenceQuery candidates)) = some 32 := by
    refine (find?_eq_some_iff_least (pairwise_ascending _)).mpr
      ⟨mem_ascending.mpr h32, candidateFits_reference, fun k hk hlt hfits => ?_⟩
    have hM := roundedM_reference_of_lt (candidates := candidates) (hpow k (mem_ascending.mp hk)) hlt
    obtain ⟨-, hmHi, -⟩ := candidateFits_iff.mp hfits
    exact absurd hmHi (not_le.mpr hM)
  exact divisorsFor_eq_next_iff.mpr ⟨hd, hfind, roundedM_reference.symm⟩

end reference

end Sys2Proof.Machine

/-! The calls on the adapter (44_surrounding_system.md R120 to R129): `apply`, the chunks of a buffer and `transmit`. -/

namespace Sys2Proof.Machine

/-! ## apply (R120, R122, R123) -/

@[simp] theorem applyRequests_length (pair : Int × Int) : (applyRequests pair).length = 3 := rfl

/-- Each request of `apply` is a configuration request. -/
theorem exists_configure_of_mem_applyRequests {pair : Int × Int} {q : DeviceRequest} (h : q ∈ applyRequests pair) :
    ∃ r, q = .configure r := by
  simp only [applyRequests, List.mem_cons, List.not_mem_nil, or_false] at h
  rcases h with rfl | rfl | rfl <;> exact ⟨_, rfl⟩

theorem faultOf_of_mem_applyRequests {pair : Int × Int} {q : DeviceRequest} (h : q ∈ applyRequests pair) :
    q.faultOf = .deviceConfig := by
  obtain ⟨r, rfl⟩ := exists_configure_of_mem_applyRequests h
  rfl

/-- Settles O51: the three requests issued one at a time. -/
theorem applyIssuesModeThenNThenM : Obligations.ApplyIssuesModeThenNThenM := by
  refine fun pair rs rest hrs => ⟨fun hlen => ?_, fun hlen => ?_⟩
  · have happly : applyPair pair (rs ++ rest) = ⟨applyRequests pair, .success, rest⟩ := issueAll_success rest hlen hrs
    rw [happly]
    exact ⟨rfl, rfl⟩
  · have hfail : applyPair pair (rs ++ .failure :: rest) =
        ⟨(applyRequests pair).take (rs.length + 1), .fault .deviceConfig, rest⟩ := by
      rw [applyPair, issueAll_failure rest hlen hrs, faultOf_of_mem_applyRequests (List.getElem_mem hlen)]
    rw [hfail]
    exact ⟨rfl, rfl⟩

/-! ## The chunks (R125, R127) -/

/-- A buffer that is not empty has one chunk more than what is left after its first. -/
theorem ceilDiv_of_pos {n m : Nat} (hm : 0 < m) (hn : 0 < n) : (n + m - 1) / m = (n - m + m - 1) / m + 1 := by
  rcases le_total m n with hle | hle
  · rw [← Nat.add_div_right _ hm]
    congr 1
    omega
  · rw [Nat.sub_eq_zero_of_le hle, Nat.zero_add, Nat.div_eq_of_lt (Nat.sub_lt hm one_pos), Nat.zero_add]
    exact Nat.div_eq_of_lt_le (by omega) (by omega)

section chunks
variable {m : Nat} (hm : 1 ≤ m)
include hm

/-- What is left after the first chunk is shorter. -/
theorem length_drop_le_of_cons {fuel : Nat} {v : Byte} {bytes : List Byte} (hfuel : (v :: bytes).length ≤ fuel + 1) :
    ((v :: bytes).drop m).length ≤ fuel := by
  rw [List.length_drop]
  omega

/-- Chunk `k` begins `k * m` bytes after the first and holds up to `m` bytes. -/
theorem chunksFrom_eq_map {fuel : Nat} {bytes : List Byte} (hfuel : bytes.length ≤ fuel) (off : Nat) :
    chunksFrom m fuel off bytes =
      (List.range ((bytes.length + m - 1) / m)).map fun k => ⟨off + k * m, (bytes.drop (k * m)).take m⟩ := by
  have hempty : (0 + m - 1) / m = 0 := Nat.div_eq_of_lt (by omega)
  induction fuel generalizing off bytes with
  | zero =>
    obtain rfl := List.length_eq_zero_iff.mp (Nat.le_zero.mp hfuel)
    rw [List.length_nil, hempty]
    rfl
  | succ fuel ih =>
    cases bytes with
    | nil =>
      rw [List.length_nil, hempty]
      rfl
    | cons v bytes =>
      have hpos : 0 < (v :: bytes).length := Nat.succ_pos _
      rw [chunksFrom, ih (length_drop_le_of_cons hm hfuel), ceilDiv_of_pos hm hpos, List.range_succ_eq_map,
        List.map_cons, List.map_map, List.length_drop]
      refine congrArg₂ _ (by simp) (List.map_congr_left fun k _ => ?_)
      simp only [Function.comp_apply, List.drop_drop, Nat.succ_mul, Chunk.mk.injEq]
      exact ⟨by omega, by rw [Nat.add_comm]⟩

theorem flatMap_payload_chunksFrom {fuel : Nat} {bytes : List Byte} (hfuel : bytes.length ≤ fuel) (off : Nat) :
    (chunksFrom m fuel off bytes).flatMap Chunk.payload = bytes := by
  induction fuel generalizing off bytes with
  | zero =>
    obtain rfl := List.length_eq_zero_iff.mp (Nat.le_zero.mp hfuel)
    rfl
  | succ fuel ih =>
    cases bytes with
    | nil => rfl
    | cons v bytes =>
      rw [chunksFrom, List.flatMap_cons, ih (length_drop_le_of_cons hm hfuel), List.take_append_drop]

theorem chunksOf_length (buffer : List Byte) : (chunksOf m buffer).length = (buffer.length + m - 1) / m := by
  simp [chunksOf, chunksFrom_eq_map hm le_rfl]

theorem flatMap_payload_chunksOf (buffer : List Byte) : (chunksOf m buffer).flatMap Chunk.payload = buffer :=
  flatMap_payload_chunksFrom hm le_rfl 0

theorem chunksOf_getElem {buffer : List Byte} {k : Nat} (h : k < (chunksOf m buffer).length) :
    (chunksOf m buffer)[k] = ⟨k * m, (buffer.drop (k * m)).take m⟩ := by
  simp [chunksOf, chunksFrom_eq_map hm le_rfl]

/-- Chunk size at least 1: the chunks as data requests, one at a time. -/
theorem transmit_eq_issueAll (buffer : List Byte) (rs : List Reply) :
    transmit buffer m rs = issueAll ((chunksOf m buffer).map .data) rs := if_neg (by omega)

end chunks

/-- Settles O52: the chunks are listed by their number. -/
theorem chunksReassembleTheBuffer : Obligations.ChunksReassembleTheBuffer := by
  refine fun m buffer hm => ⟨flatMap_payload_chunksOf hm buffer, chunksOf_length hm buffer, fun k h => ?_⟩
  rw [chunksOf_getElem hm h]
  exact ⟨rfl, by rw [List.length_take, List.length_drop]⟩

/-! ## transmit (R126, R128, R129) -/

/-- Settles O53: the chunks issued one at a time, the failed one at its offset. -/
theorem transmitStopsAtTheFirstFailedChunk : Obligations.TransmitStopsAtTheFirstFailedChunk := by
  refine fun m buffer rs rest => ⟨fun hm hlen hrs => ?_, fun hm hlen hrs => ?_, fun hm => ?_, rfl⟩
  · rw [transmit_eq_issueAll hm]
    exact issueAll_success rest (by rwa [List.length_map]) hrs
  · rw [transmit_eq_issueAll hm, issueAll_failure rest (by rwa [List.length_map]) hrs, List.getElem_map,
      chunksOf_getElem hm hlen, List.map_take, DeviceRequest.faultOf]
  · rw [transmit_eq_issueAll hm]
    rfl

end Sys2Proof.Machine

/-! One invocation (44_surrounding_system.md R139): every way it can go, said once, with what is known of it. -/

namespace Sys2Proof.Machine

/-! ## How a call on the adapter ends (R123, R126, R128) -/

/-- A call that succeeds has issued every request, each answered by a success. -/
theorem issueAll_success_cases {qs : List DeviceRequest} {rs : List Reply} (h : (issueAll qs rs).callEnd = .success) :
    rs.take qs.length = List.replicate qs.length .success ∧ issueAll qs rs = ⟨qs, .success, rs.drop qs.length⟩ := by
  induction qs generalizing rs with
  | nil => exact ⟨rfl, rfl⟩
  | cons q qs ih =>
    match rs with
    | [] => cases h
    | .failure :: rs => cases h
    | .success :: rs =>
      obtain ⟨hreplies, hall⟩ := ih (rs := rs) h
      simp [issueAll, hall, hreplies, List.replicate_succ]

theorem issueAll_callEnd_ne_refused (qs : List DeviceRequest) (rs : List Reply) (r : Refusal) :
    (issueAll qs rs).callEnd ≠ .refused r := by
  induction qs generalizing rs with
  | nil => simp [issueAll]
  | cons q qs ih =>
    match rs with
    | [] => simp [issueAll]
    | .failure :: rs => simp [issueAll]
    | .success :: rs => exact ih rs

/-- A failed `apply`: the last request issued is the failed one. -/
theorem applyPair_fault_cases {pair : Int × Int} {rs : List Reply} {f : Fault}
    (h : (applyPair pair rs).callEnd = .fault f) :
    f = .deviceConfig ∧ ∃ earlier r, (applyPair pair rs).issued = earlier ++ [.configure r] ∧
      (∀ q ∈ earlier, q ∈ applyRequests pair) ∧ earlier.length < 3 ∧
      (∀ a ∈ rs.take earlier.length, a = .success) ∧ rs[earlier.length]? = some .failure := by
  obtain ⟨earlier, q, hissued, hq, rfl, hlen, hsuccess, hfailure⟩ := issueAll_fault_cases h
  obtain ⟨r, rfl⟩ := exists_configure_of_mem_applyRequests hq
  refine ⟨rfl, earlier, r, hissued, fun q hq => mem_of_mem_issued (rs := rs) ?_, hlen, hsuccess, hfailure⟩
  rw [hissued]
  exact List.mem_append_left _ hq

/-- A failed `transmit`: the last request issued is the failed chunk, and the fault has its offset. -/
theorem transmit_fault_cases {buffer : List Byte} {m : Nat} {rs : List Reply} {f : Fault}
    (h : (transmit buffer m rs).callEnd = .fault f) :
    ∃ earlier c, (transmit buffer m rs).issued = earlier ++ [.data c] ∧ f = .transfer c.offset ∧
      (∀ a ∈ rs.take earlier.length, a = .success) ∧ rs[earlier.length]? = some .failure := by
  rcases Nat.eq_zero_or_pos m with rfl | hm
  · cases h
  · rw [transmit_eq_issueAll hm] at h ⊢
    obtain ⟨earlier, q, hissued, hq, rfl, -, hsuccess, hfailure⟩ := issueAll_fault_cases h
    obtain ⟨c, -, rfl⟩ := List.mem_map.mp hq
    exact ⟨earlier, c, hissued, rfl, hsuccess, hfailure⟩

theorem transmit_success_cases {buffer : List Byte} {m : Nat} {rs : List Reply}
    (h : (transmit buffer m rs).callEnd = .success) :
    1 ≤ m ∧ (transmit buffer m rs).issued = (chunksOf m buffer).map .data := by
  rcases Nat.eq_zero_or_pos m with rfl | hm
  · cases h
  · rw [transmit_eq_issueAll hm] at h ⊢
    rw [(issueAll_success_cases h).2]
    exact ⟨hm, rfl⟩

/-! ## Every way an invocation goes -/

/-- The device events of a session that has issued these requests so far, the handle acquired right after the lookup
(log entry 19). -/
def sessionEvents (job : Job) (qs : List DeviceRequest) : List DeviceEvent :=
  [.lookup job.device, .acquire] ++ qs.map .request

/-- The first three steps of R139 went well: the characters are encoded, the adapter is there and a pair fits. -/
structure Prepared (job : Job) (env : Environment) (buffer : List Byte) (pair : Int × Int) : Prop where
  encoded : encodeStr job.chars = .packedBuffer buffer
  attached : job.device ∈ env.attached
  divided : divisorsFor job.query = .next pair

/-- `apply` succeeded as well (R122). -/
structure Configured (job : Job) (env : Environment) (buffer : List Byte) (pair : Int × Int) : Prop
    extends Prepared job env buffer pair where
  confirmed : env.replies.take 3 = [.success, .success, .success]

/-- What an invocation can do, one constructor for each way it goes. -/
inductive Goes (job : Job) (env : Environment) : Invocation → Prop where
  | invalidInput {c : CharCode} {i : Nat} (encoded : encodeStr job.chars = .invalidInputError c i) :
      Goes job env (endIdle [] env (.error (.invalidInput c i)))
  | refused (r : Refusal) : Goes job env (endIdle [] env (.refused r))
  | notFound {b : List Byte} (encoded : encodeStr job.chars = .packedBuffer b) (absent : job.device ∉ env.attached) :
      Goes job env (endIdle [.lookup job.device] env (.error (.device (.deviceNotFound job.device))))
  | noRate {b : List Byte} {events : List DeviceEvent} (encoded : encodeStr job.chars = .packedBuffer b)
      (divided : divisorsFor job.query = .fault .unrepresentableRate)
      (events_cases : events = [] ∨ events = sessionEvents job [] ++ [.release]) :
      Goes job env (endIdle events env (.error (.device .unrepresentableRate)))
  | configFailed {b : List Byte} {pair : Int × Int} {earlier : List DeviceRequest} {r : ConfigRequest}
      (prepared : Prepared job env b pair) (configures : ∀ q ∈ earlier, q ∈ applyRequests pair)
      (length : earlier.length < 3) (successes : ∀ a ∈ env.replies.take earlier.length, a = .success)
      (failure : env.replies[earlier.length]? = some .failure) :
      Goes job env
        { events := sessionEvents job (earlier ++ [.configure r]) ++ [.release],
          phases := [.Idle, .Configuring, .Failed], clock := .unconfirmed, handleHeld := false, invEnd := .error (.device .deviceConfig) }
  | configHangs {pair : Int × Int} {issued : List DeviceRequest} (configures : ∀ q ∈ issued, q ∈ applyRequests pair) :
      Goes job env
        { events := sessionEvents job issued, phases := [.Idle, .Configuring], clock := .unconfirmed,
          handleHeld := true, invEnd := .hanging }
  | sent {b : List Byte} {pair : Int × Int} (configured : Configured job env b pair)
      (chunkSize : 1 ≤ job.maxChunkSize) :
      Goes job env
        (afterTransmit b (.configured pair.1 pair.2)
          (sessionEvents job (applyRequests pair ++ (chunksOf job.maxChunkSize b).map .data)) .success)
  | sendFailed {b : List Byte} {pair : Int × Int} {earlier : List DeviceRequest} {c : Chunk}
      (configured : Configured job env b pair)
      (successes : ∀ a ∈ (env.replies.drop 3).take earlier.length, a = .success)
      (failure : (env.replies.drop 3)[earlier.length]? = some .failure) :
      Goes job env
        (afterTransmit b (.configured pair.1 pair.2) (sessionEvents job (applyRequests pair ++ (earlier ++ [.data c])))
          (.fault (.transfer c.offset)))
  | sendHangs {b : List Byte} {pair : Int × Int} {issued : List DeviceRequest}
      (configured : Configured job env b pair) :
      Goes job env
        (afterTransmit b (.configured pair.1 pair.2) (sessionEvents job (applyRequests pair ++ issued)) .hanging)
  | sendRefused {b : List Byte} {pair : Int × Int} {issued : List DeviceRequest} {r : Refusal}
      (configured : Configured job env b pair) :
      Goes job env
        (afterTransmit b (.configured pair.1 pair.2) (sessionEvents job (applyRequests pair ++ issued)) (.refused r))

section goes
variable {job : Job} {env : Environment} {b : List Byte} {pair : Int × Int}

theorem sessionEvents_append (qs ps : List DeviceRequest) :
    sessionEvents job (qs ++ ps) = sessionEvents job qs ++ ps.map .request := by
  simp [sessionEvents]

theorem configureAndTransmit_eq :
    configureAndTransmit b pair job env =
      afterApply b (clockAfter pair (applyPair pair env.replies).callEnd)
        (sessionEvents job (applyPair pair env.replies).issued)
        (transmit b job.maxChunkSize (applyPair pair env.replies).repliesLeft)
        (applyPair pair env.replies).callEnd := rfl

/-- After a successful `apply`, by how `transmit` ends. -/
theorem goes_afterTransmit (h : Configured job env b pair) {t : CallResult}
    (ht : t = transmit b job.maxChunkSize (env.replies.drop 3)) :
    Goes job env (afterTransmit b (.configured pair.1 pair.2)
      (sessionEvents job (applyRequests pair) ++ t.issued.map .request) t.callEnd) := by
  rw [← sessionEvents_append]
  subst ht
  cases hend : (transmit b job.maxChunkSize (env.replies.drop 3)).callEnd with
  | success =>
    obtain ⟨hm, hissued⟩ := transmit_success_cases hend
    rw [hissued]
    exact .sent h hm
  | fault f =>
    obtain ⟨earlier, c, hissued, rfl, hsuccess, hfailure⟩ := transmit_fault_cases hend
    rw [hissued]
    exact .sendFailed h hsuccess hfailure
  | hanging => exact .sendHangs h
  | refused r => exact .sendRefused h

theorem goes_configureAndTransmit (h : Prepared job env b pair) :
    Goes job env (configureAndTransmit b pair job env) := by
  rw [configureAndTransmit_eq]
  cases hend : (applyPair pair env.replies).callEnd with
  | success =>
    obtain ⟨hreplies, hall⟩ := issueAll_success_cases hend
    rw [applyPair, hall]
    exact goes_afterTransmit ⟨h, hreplies⟩ rfl
  | fault f =>
    obtain ⟨rfl, earlier, r, hissued, hmem, hlen, hsuccess, hfailure⟩ := applyPair_fault_cases hend
    rw [hissued]
    exact .configFailed h hmem hlen hsuccess hfailure
  | hanging => exact .configHangs fun q hq => mem_of_mem_issued hq
  | refused r => exact absurd hend (issueAll_callEnd_ne_refused _ _ r)

theorem adapterFound_iff : adapterFound job env = true ↔ job.device ∈ env.attached := by
  simp [adapterFound]

theorem fault_eq_of_divisorsFor {q : DivisorQuery} {f : Fault} (h : divisorsFor q = .fault f) :
    f = .unrepresentableRate := (divisorsFor_eq_fault_iff.mp h).1

theorem goes_locateAndDivide (encoded : encodeStr job.chars = .packedBuffer b) :
    Goes job env (locateAndDivide b job env) := by
  rw [locateAndDivide]
  split
  · next hfound hdivided =>
    exact goes_configureAndTransmit ⟨encoded, adapterFound_iff.mp hfound, hdivided⟩
  · next f _ _ hdivided =>
    obtain rfl := fault_eq_of_divisorsFor hdivided
    exact .noRate encoded hdivided (.inl rfl)
  · next f _ _ hdivided =>
    obtain rfl := fault_eq_of_divisorsFor hdivided
    exact .noRate encoded hdivided (.inr rfl)
  · next hfound _ =>
    exact .notFound encoded fun hmem => by simp [adapterFound_iff.mpr hmem] at hfound
  · next hfound _ _ =>
    exact .notFound encoded fun hmem => by simp [adapterFound_iff.mpr hmem] at hfound
  · next f _ _ hdivided =>
    obtain rfl := fault_eq_of_divisorsFor hdivided
    exact .noRate encoded hdivided (.inl rfl)
  · exact .refused _

/-! ## The first step of an invocation: the frame (R139 step 1, 30_encoding.md R62) -/

theorem encodeFrame_eq (cfg : Config) (chars : List CharCode) :
    encodeFrame cfg chars = performAll (frameInputs chars) (resetWith cfg []) := by
  have hinputs : (assemble [.encode chars]).map .command = startInput :: frameInputs chars := by
    simp [assemble_encode, frameInputs, startInput, endInput, charInput]
  have hstart : perform startInput (resetWith cfg []) = .next (resetWith cfg []) := by
    rw [startInput, perform_command, decode_toWord]
    rfl
  rw [encodeFrame, hinputs]
  exact performAll_cons_of_next hstart

theorem view_of_encodeFrame {cfg : Config} {chars : List CharCode} {t : State} (h : encodeFrame cfg chars = .next t) :
    view t = (encodeStr chars).toView := by
  rw [encodeFrame_eq] at h
  exact view_of_frame (streamInv_of_atResetValues (atResetValues_resetWith cfg [])) rfl h

theorem invoke_of_invalidInput {t : State} {c : CharCode} {i : Nat} (h : encodeFrame job.cfg job.chars = .next t)
    (encoded : encodeStr job.chars = .invalidInputError c i) :
    invoke job env = endIdle [] env (.error (.invalidInput c i)) := by
  have hview := view_of_encodeFrame h
  rw [encoded, EncodeResult.toView] at hview
  simp [invoke, h, hview]

theorem invoke_of_packedBuffer {t : State} (h : encodeFrame job.cfg job.chars = .next t)
    (encoded : encodeStr job.chars = .packedBuffer b) : invoke job env = locateAndDivide b job env := by
  have hview := view_of_encodeFrame h
  rw [encoded, EncodeResult.toView] at hview
  simp [invoke, h, hview]

theorem invoke_of_refused {r : Refusal} (h : encodeFrame job.cfg job.chars = .refused r) :
    invoke job env = endIdle [] env (.refused r) := by
  simp [invoke, h]

/-- Every invocation goes one of the ways listed. -/
theorem goes_invoke (job : Job) (env : Environment) : Goes job env (invoke job env) := by
  cases hframe : encodeFrame job.cfg job.chars with
  | next t =>
    cases encoded : encodeStr job.chars with
    | invalidInputError c i =>
      rw [invoke_of_invalidInput hframe encoded]
      exact .invalidInput encoded
    | packedBuffer b =>
      rw [invoke_of_packedBuffer hframe encoded]
      exact goes_locateAndDivide encoded
  | fault f =>
    rw [encodeFrame_eq] at hframe
    exact absurd hframe (performAll_ne_fault f)
  | refused r =>
    rw [invoke_of_refused hframe]
    exact .refused r

/-- Settles O54: a frame that fits is taken to its end, and its view is the error. -/
theorem invalidInputTouchesNoDevice : Obligations.InvalidInputTouchesNoDevice := by
  intro job env c i hfits encoded
  obtain ⟨t, ht⟩ := performAll_frameInputs_answersNext
    (room_of_atResetValues (atResetValues_resetWith job.cfg []) hfits)
  rw [invoke_of_invalidInput ((encodeFrame_eq ..).trans ht) encoded, endIdle]

end goes

end Sys2Proof.Machine

/-! What holds of every invocation (44_surrounding_system.md R130 to R139), by the way it goes. -/

namespace Sys2Proof.Machine

section goes
variable {job : Job} {env : Environment} {v : Invocation}

/-! ## Data requests (R120, R123; 70_reset_and_hazards.md R179) -/

theorem mem_sessionEvents_request {qs : List DeviceRequest} {q : DeviceRequest} :
    .request q ∈ sessionEvents job qs ↔ q ∈ qs := by
  simp [sessionEvents]

theorem data_notMem_applyRequests (c : Chunk) (pair : Int × Int) : .data c ∉ applyRequests pair := fun h => by
  obtain ⟨r, hr⟩ := exists_configure_of_mem_applyRequests h
  cases hr

/-- Configuration requests alone are no data. -/
theorem data_notMem_sessionEvents {qs : List DeviceRequest} {pair : Int × Int}
    (h : ∀ q ∈ qs, q ∈ applyRequests pair) (c : Chunk) : .request (.data c) ∉ sessionEvents job qs := fun hmem =>
  data_notMem_applyRequests c pair (h _ (mem_sessionEvents_request.mp hmem))

theorem data_notMem_configFailed {earlier : List DeviceRequest} {pair : Int × Int}
    (h : ∀ q ∈ earlier, q ∈ applyRequests pair) (r : ConfigRequest) (c : Chunk) :
    .request (.data c) ∉ sessionEvents job (earlier ++ [.configure r]) ++ [.release] := by
  simpa [sessionEvents] using data_notMem_sessionEvents (job := job) h c

theorem afterTransmit_clock (b : List Byte) (k : AdapterClock) (events : List DeviceEvent) (e : CallEnd) :
    (afterTransmit b k events e).clock = k := by
  cases e <;> rfl

/-- `transmit` adds at most the release to the events. -/
theorem prefix_afterTransmit_events (b : List Byte) (k : AdapterClock) (events : List DeviceEvent) (e : CallEnd) :
    events <+: (afterTransmit b k events e).events := by
  cases e <;> simp [afterTransmit]

/-- An invocation with a data request has configured the adapter before anything else. -/
theorem Goes.configured_of_data (h : Goes job env v) {c : Chunk} (hc : .request (.data c) ∈ v.events) :
    ∃ b pair, Configured job env b pair ∧ v.clock = .configured pair.1 pair.2 ∧
      sessionEvents job (applyRequests pair) <+: v.events := by
  have configures {b : List Byte} {pair : Int × Int} {qs : List DeviceRequest} {e : CallEnd}
      (hconfigured : Configured job env b pair)
      (hv : v = afterTransmit b (.configured pair.1 pair.2) (sessionEvents job (applyRequests pair ++ qs)) e) :
      ∃ b pair, Configured job env b pair ∧ v.clock = .configured pair.1 pair.2 ∧
        sessionEvents job (applyRequests pair) <+: v.events := by
    subst hv
    refine ⟨b, pair, hconfigured, afterTransmit_clock .., .trans ?_ (prefix_afterTransmit_events ..)⟩
    rw [sessionEvents_append]
    exact List.prefix_append _ _
  cases h with
  | invalidInput encoded => simp [endIdle] at hc
  | refused r => simp [endIdle] at hc
  | notFound encoded absent => simp [endIdle] at hc
  | noRate encoded divided events_cases => rcases events_cases with rfl | rfl <;> simp [endIdle, sessionEvents] at hc
  | @configFailed _ _ _ r _ hmem => exact absurd hc (data_notMem_configFailed hmem r c)
  | configHangs hmem => exact absurd hc (data_notMem_sessionEvents hmem c)
  | sent hconfigured _ => exact configures hconfigured rfl
  | sendFailed hconfigured _ _ => exact configures hconfigured rfl
  | sendHangs hconfigured => exact configures hconfigured rfl
  | sendRefused hconfigured => exact configures hconfigured rfl

/-- What stands at the beginning of a list stands before every element it does not have. -/
theorem prefix_of_prefix_append_cons {α : Type} {l before after : List α} {x : α} (h : l <+: before ++ x :: after)
    (hx : x ∉ l) : l <+: before := by
  rcases List.prefix_or_prefix_of_prefix h (List.prefix_append before (x :: after)) with h' | ⟨rest, rfl⟩
  · exact h'
  · cases rest with
    | nil => simp
    | cons y rest =>
      obtain ⟨rfl, -⟩ := List.cons_prefix_cons.mp ((List.prefix_append_right_inj before).mp h)
      exact absurd (List.mem_append_right _ List.mem_cons_self) hx

/-- Settles O55: every way with a data request begins with the lookup, the acquisition and a successful `apply`. -/
theorem noDataBeforeConfiguration : Obligations.NoDataBeforeConfiguration := by
  intro job env before after c h
  obtain ⟨b, ⟨n, m⟩, hconfigured, hclock, hbegin⟩ := (goes_invoke job env).configured_of_data (c := c) (by simp [h])
  rw [h] at hbegin
  have hnodata : .request (.data c) ∉ sessionEvents job (applyRequests (n, m)) :=
    data_notMem_sessionEvents (fun _ => id) c
  exact ⟨hconfigured.attached, n, m, hconfigured.divided,
    prefix_of_prefix_append_cons hbegin hnodata, hconfigured.confirmed, hclock⟩

/-! ## The handle and the report (R132, R135, R137) -/

/-- On every way that ends, the handle is not held, and if it was acquired its release is the last device event. -/
theorem Goes.released (h : Goes job env v) (hend : v.invEnd.isEnded = true) :
    v.handleHeld = false ∧ (.acquire ∈ v.events → ∃ events, v.events = events ++ [.release]) := by
  cases h with
  | invalidInput encoded => exact ⟨rfl, by simp [endIdle]⟩
  | refused r => cases hend
  | notFound encoded absent => exact ⟨rfl, by simp [endIdle]⟩
  | noRate encoded divided events_cases =>
    rcases events_cases with rfl | rfl
    · exact ⟨rfl, by simp [endIdle]⟩
    · exact ⟨rfl, fun _ => ⟨_, rfl⟩⟩
  | configFailed | sent | sendFailed => exact ⟨rfl, fun _ => ⟨_, rfl⟩⟩
  | configHangs | sendHangs | sendRefused => cases hend

theorem isEnded_iff {e : InvocationEnd} : e.isEnded = true ↔ (∃ b, e = .success b) ∨ ∃ r, e = .error r := by
  cases e <;> simp [InvocationEnd.isEnded]

theorem exists_report_of_isEnded {e : InvocationEnd} (h : e.isEnded = true) : ∃ r, reportOf e = some r := by
  cases e with
  | success b => exact ⟨_, rfl⟩
  | error e => exact ⟨_, rfl⟩
  | hanging => cases h
  | refused r => cases h

/-- Settles O56: the report is the process's last event, after every device event. -/
theorem handleIsReleasedOnEveryExit : Obligations.HandleIsReleasedOnEveryExit := by
  intro job env hend
  have hended := isEnded_iff.mpr hend
  obtain ⟨hheld, hrelease⟩ := (goes_invoke job env).released hended
  obtain ⟨r, hr⟩ := exists_report_of_isEnded hended
  have hprocess : (invoke job env).process = (invoke job env).events.map .device ++ [.reported r] := by
    rw [process_eq, hr]
    rfl
  refine ⟨hheld, fun hacquired => ?_, _, r, hprocess, hr, by simp⟩
  obtain ⟨events, hevents⟩ := hrelease hacquired
  exact ⟨by simp [hevents], events.map .device, r, by rw [hprocess, hevents, List.map_append, List.append_assoc]; rfl⟩

/-! ## What a success has sent (R127, R131, R139) -/

/-- The bytes a device event sends. -/
def dataBytes : DeviceEvent → List Byte
  | .request (.data c) => c.payload
  | _ => []

theorem flatMap_dataBytes_requests {qs : List DeviceRequest} {pair : Int × Int} (h : ∀ q ∈ qs, q ∈ applyRequests pair) :
    (qs.map DeviceEvent.request).flatMap dataBytes = [] := by
  rw [List.flatMap_eq_nil_iff]
  intro e he
  obtain ⟨q, hq, rfl⟩ := List.mem_map.mp he
  obtain ⟨r, rfl⟩ := exists_configure_of_mem_applyRequests (h q hq)
  rfl

theorem flatMap_dataBytes_chunks (chunks : List Chunk) :
    (chunks.map fun c => DeviceEvent.request (.data c)).flatMap dataBytes = chunks.flatMap Chunk.payload := by
  rw [List.flatMap_map]
  rfl

theorem Goes.sent_of_success (h : Goes job env v) {b : List Byte} (hb : v.invEnd = .success b) :
    (∃ pair, Configured job env b pair ∧ v.clock = .configured pair.1 pair.2) ∧ v.events.flatMap dataBytes = b ∧
      v.phases.getLast? = some .Done := by
  cases h with
  | @sent b pair hconfigured hm =>
    cases hb
    refine ⟨⟨_, hconfigured, rfl⟩, ?_, rfl⟩
    have hconfig := flatMap_dataBytes_requests fun q (hq : q ∈ applyRequests pair) => hq
    have hdata := (flatMap_dataBytes_chunks _).trans (flatMap_payload_chunksOf hm b)
    simp [afterTransmit, sessionEvents, hconfig, hdata, dataBytes, Function.comp_def]
  | invalidInput | refused | notFound | noRate | configFailed | configHangs | sendFailed | sendHangs | sendRefused =>
    cases hb

/-- Settles O57: the one way to a success issues every chunk of the buffer, and nothing else carries data. -/
theorem successSendsExactlyTheEncoding : Obligations.SuccessSendsExactlyTheEncoding := by
  intro job env b hb
  obtain ⟨⟨⟨n, m⟩, hconfigured, hclock⟩, hbytes, -⟩ := (goes_invoke job env).sent_of_success hb
  exact ⟨hconfigured.encoded, ⟨n, m, hconfigured.divided, hclock⟩, hbytes⟩

/-! ## The phases (R130) -/

/-- One phase follows another by a transition of the session machine. -/
def Follows (p p' : Phase) : Prop := ∃ e, Phase.next p e = some p'

theorem follows_begin : Follows .Idle .Configuring := ⟨.begin, rfl⟩
theorem follows_configured : Follows .Configuring .Transmitting := ⟨.succeeded, rfl⟩
theorem follows_configFailed : Follows .Configuring .Failed := ⟨.failed, rfl⟩
theorem follows_sent : Follows .Transmitting .Done := ⟨.succeeded, rfl⟩
theorem follows_sendFailed : Follows .Transmitting .Failed := ⟨.failed, rfl⟩

theorem Goes.phases (h : Goes job env v) : v.phases.head? = some .Idle ∧ v.phases.IsChain Follows := by
  cases h with
  | invalidInput | refused | notFound | noRate => exact ⟨rfl, List.isChain_singleton _⟩
  | configFailed => exact ⟨rfl, by simp [follows_begin, follows_configFailed]⟩
  | configHangs => exact ⟨rfl, by simp [follows_begin]⟩
  | sent => exact ⟨rfl, by simp [afterTransmit, follows_begin, follows_configured, follows_sent]⟩
  | sendFailed => exact ⟨rfl, by simp [afterTransmit, follows_begin, follows_configured, follows_sendFailed]⟩
  | sendHangs | sendRefused => exact ⟨rfl, by simp [afterTransmit, follows_begin, follows_configured]⟩

/-- Settles O58: each way's phases, one transition at a time. -/
theorem phasesFollowTheSessionMachine : Obligations.PhasesFollowTheSessionMachine := by
  intro job env
  obtain ⟨hhead, hchain⟩ := (goes_invoke job env).phases
  exact ⟨hhead, hchain, fun b hb => ((goes_invoke job env).sent_of_success hb).2.2⟩

/-! ## The errors (60_exceptions.md R150, R137) -/

/-- The answers to the requests of a session: three successes and then those to the data requests. -/
theorem replies_of_configured {rs : List Reply} (h3 : rs.take 3 = [.success, .success, .success]) {k : Nat}
    (hk : ∀ a ∈ (rs.drop 3).take k, a = .success) : ∀ a ∈ rs.take (3 + k), a = .success := by
  rw [List.take_add, h3]
  simpa [or_imp, forall_and] using hk

/-- Settles O60: the ways that end in an error, each with its cause. -/
theorem everyErrorHasItsCauseAndContext : Obligations.EveryErrorHasItsCauseAndContext := by
  intro job env e he
  have h := goes_invoke job env
  generalize invoke job env = v at h he
  cases h with
  | invalidInput encoded =>
    cases he
    exact .inl ⟨_, _, rfl, encoded, rfl⟩
  | notFound encoded absent =>
    cases he
    exact .inr ⟨⟨_, encoded⟩, .inl ⟨rfl, absent, rfl, rfl⟩⟩
  | noRate encoded divided =>
    cases he
    exact .inr ⟨⟨_, encoded⟩, .inr (.inl ⟨rfl, divided, rfl⟩)⟩
  | @configFailed _ pair earlier r prepared configures length successes failure =>
    cases he
    refine .inr ⟨⟨_, prepared.encoded⟩, .inr (.inr (.inl
      ⟨earlier, r, rfl, data_notMem_configFailed configures r, ?_, length, successes, failure, rfl⟩))⟩
    simp [sessionEvents]
  | @sendFailed _ pair earlier c configured successes failure =>
    cases he
    refine .inr ⟨⟨_, configured.encoded⟩, .inr (.inr (.inr
      ⟨applyRequests pair ++ earlier, c, rfl, ?_, ?_, ?_, ?_, rfl⟩))⟩
    · simp [afterTransmit, sessionEvents]
    · simp
    · rw [List.length_append, applyRequests_length]
      exact replies_of_configured configured.confirmed successes
    · rwa [List.length_append, applyRequests_length, ← List.getElem?_drop]
  | refused | configHangs | sent | sendHangs | sendRefused => cases he

end goes

end Sys2Proof.Machine

/-! Invocations one after another on one adapter: what crosses from one to the next (44_surrounding_system.md R122,
R132, R136; 10_state.md R21). -/

namespace Sys2Proof.Machine

/-- Two invocations that differ in the adapter's clock alone. -/
def SameButClock (v w : Invocation) : Prop :=
  v.events = w.events ∧ v.phases = w.phases ∧ v.handleHeld = w.handleHeld ∧ v.invEnd = w.invEnd

section clock
variable (job : Job) (env : Environment) (c : AdapterClock)

theorem sameButClock_endIdle (events : List DeviceEvent) (e : InvocationEnd) :
    SameButClock (endIdle events { env with clock := c } e) (endIdle events env e) := ⟨rfl, rfl, rfl, rfl⟩

/-- `configureAndTransmit` overwrites the clock it finds, and every other way is `endIdle`. -/
theorem sameButClock_locateAndDivide (b : List Byte) :
    SameButClock (locateAndDivide b job { env with clock := c }) (locateAndDivide b job env) := by
  obtain ⟨attached, replies, clock, first⟩ := env
  simp only [locateAndDivide, adapterFound]
  split <;> exact ⟨rfl, rfl, rfl, rfl⟩

theorem sameButClock_invoke : SameButClock (invoke job { env with clock := c }) (invoke job env) := by
  cases hframe : encodeFrame job.cfg job.chars with
  | next t =>
    cases hview : view t with
    | busy => simpa only [invoke, hframe, hview] using sameButClock_endIdle env c [] .hanging
    | ok b => simpa only [invoke, hframe, hview] using sameButClock_locateAndDivide job env c b
    | err ch i => simpa only [invoke, hframe, hview] using sameButClock_endIdle env c [] (.error (.invalidInput ch i))
  | fault f => simpa only [invoke, hframe] using sameButClock_endIdle env c [] (.error (.device f))
  | refused r => simpa only [invoke, hframe] using sameButClock_endIdle env c [] (.refused r)

end clock

/-- The call ends, alone or in a sequence. -/
def CallEnds (p : Job × Environment) : Prop := (invoke p.1 p.2).invEnd.isEnded = true

section sequence
variable (p : Job × Environment) (calls : List (Job × Environment)) (c : AdapterClock)

theorem isEnded_invoke_iff : (invoke p.1 { p.2 with clock := c }).invEnd.isEnded = true ↔ CallEnds p := by
  obtain ⟨-, -, -, hend⟩ := sameButClock_invoke p.1 p.2 c
  rw [CallEnds, hend]

variable {p} in
theorem invokeAll_cons_of_ends (h : CallEnds p) :
    invokeAll (p :: calls) c =
      invoke p.1 { p.2 with clock := c } :: invokeAll calls (invoke p.1 { p.2 with clock := c }).clock := by
  rw [invokeAll, if_pos ((isEnded_invoke_iff p c).mpr h)]

variable {p} in
theorem invokeAll_cons_of_not_ends (h : ¬ CallEnds p) :
    invokeAll (p :: calls) c = [invoke p.1 { p.2 with clock := c }] := by
  rw [invokeAll, if_neg (mt (isEnded_invoke_iff p c).mp h)]

/-- Each invocation of a sequence is its call begun with the clock the one before it left. -/
theorem invokeAll_getElem? {k : Nat} {v : Invocation} (hp : calls[k]? = some p)
    (hv : (invokeAll calls c)[k]? = some v) :
    ∃ found, (c :: (invokeAll calls c).map Invocation.clock)[k]? = some found ∧
      v = invoke p.1 { p.2 with clock := found } := by
  induction calls generalizing c k with
  | nil => cases hp
  | cons q calls ih =>
    by_cases hq : CallEnds q
    · rw [invokeAll_cons_of_ends calls c hq] at hv ⊢
      cases k with
      | zero =>
        cases hp
        cases hv
        exact ⟨c, rfl, rfl⟩
      | succ k => exact ih _ hp hv
    · rw [invokeAll_cons_of_not_ends calls c hq] at hv ⊢
      cases k with
      | zero =>
        cases hp
        cases hv
        exact ⟨c, rfl, rfl⟩
      | succ k => cases hv

theorem invokeAll_length_le : (invokeAll calls c).length ≤ calls.length := by
  induction calls generalizing c with
  | nil => exact le_rfl
  | cons q calls ih =>
    by_cases hq : CallEnds q
    · rw [invokeAll_cons_of_ends calls c hq]
      exact Nat.succ_le_succ (ih _)
    · rw [invokeAll_cons_of_not_ends calls c hq]
      exact Nat.succ_le_succ (Nat.zero_le _)

/-- The calls up to the first that does not end take place, and that one. -/
theorem lt_invokeAll_length_iff {k : Nat} (hk : k < calls.length) :
    k < (invokeAll calls c).length ↔ ∀ j p, j < k → calls[j]? = some p → CallEnds p := by
  induction calls generalizing c k with
  | nil => exact absurd hk (Nat.not_lt_zero k)
  | cons q calls ih =>
    cases k with
    | zero =>
      have hfirst : 0 < (invokeAll (q :: calls) c).length := by
        by_cases hq : CallEnds q
        · simp [invokeAll_cons_of_ends calls c hq]
        · simp [invokeAll_cons_of_not_ends calls c hq]
      exact iff_of_true hfirst fun j _ hj => absurd hj (Nat.not_lt_zero j)
    | succ k =>
      by_cases hq : CallEnds q
      · rw [invokeAll_cons_of_ends calls c hq, List.length_cons, Nat.succ_lt_succ_iff, ih _ (Nat.lt_of_succ_lt_succ hk)]
        constructor
        · intro h j p hj hp
          cases j with
          | zero =>
            cases hp
            exact hq
          | succ j => exact h j p (Nat.lt_of_succ_lt_succ hj) hp
        · exact fun h j p hj hp => h (j + 1) p (Nat.succ_lt_succ hj) hp
      · rw [invokeAll_cons_of_not_ends calls c hq]
        exact iff_of_false (by simp) fun h => hq (h 0 q (Nat.succ_pos k) rfl)

theorem invokeAll_length_of_all_end (h : ∀ p ∈ calls, CallEnds p) : (invokeAll calls c).length = calls.length := by
  induction calls generalizing c with
  | nil => rfl
  | cons q calls ih =>
    obtain ⟨hq, hcalls⟩ := List.forall_mem_cons.mp h
    rw [invokeAll_cons_of_ends calls c hq, List.length_cons, ih _ hcalls, List.length_cons]

end sequence

/-- Settles O59: an invocation uses the clock it finds only to leave it, and `invokeAll` hands on nothing else. -/
theorem invocationsShareOnlyTheClock : Obligations.InvocationsShareOnlyTheClock := by
  refine ⟨sameButClock_invoke, fun calls c => ⟨fun k p v hp hv => ?_, invokeAll_length_le calls c, fun k hk => ?_,
    fun h => ?_⟩⟩
  · obtain ⟨found, hfound, rfl⟩ := invokeAll_getElem? p calls c hp hv
    obtain ⟨hevents, hphases, hheld, hend⟩ := sameButClock_invoke p.1 p.2 found
    exact ⟨hevents, hphases, hheld, hend, found, hfound, rfl⟩
  · simp only [← isEnded_iff]
    exact lt_invokeAll_length_iff calls c hk
  · exact invokeAll_length_of_all_end calls c fun p hp => isEnded_iff.mpr (h p hp)

end Sys2Proof.Machine
